-- ==== Sys2Proof/Word.lean ====
section
/-! DEFINITION. The byte, the 32-bit register word and byte sequences of PADECB (00_scope.md R12, R13). -/

namespace Sys2Proof

/-- A byte is an unsigned 8-bit value (00_scope.md R13). -/
abbrev Byte := BitVec 8

/-- A register word, a command word or a bus data word: 32 bits, bit 0 the least significant (R12). -/
abbrev Word := BitVec 32

/-- A finite byte sequence, index 0 first (R13). -/
abbrev Bytes := List Byte

end Sys2Proof
end

