-- ==== Sys2Proof/Syntax.lean ====
section
/-! DEFINITION. The PADECB command set, version 1: one constructor per row of spec/opcode_table.json. -/

namespace Sys2Proof

/-- The source select of a command word (30_encoding.md R93): `inBuf` is `SRC = 0`, the IN buffer;
`outBuf` is `SRC = 1`, the OUT buffer. -/
inductive Src where
  | inBuf
  | outBuf
  deriving DecidableEq, Repr

/-- The four commands (30_encoding.md R92). PAD and UNPAD carry the block size `BS`, read as an
unsigned number (R94); ENCRYPT and DECRYPT carry none (R95). -/
inductive Instr where
  | pad (src : Src) (bs : Nat)
  | unpad (src : Src) (bs : Nat)
  | encrypt (src : Src)
  | decrypt (src : Src)
  deriving DecidableEq, Repr

end Sys2Proof
end

