-- ==== Sys2Proof/WellFormed.lean ====
section
/-! DEFINITION. Which terms of `Instr` a command word can stand for. -/

namespace Sys2Proof

/-- `BS` is an 8-bit field, so a PAD or UNPAD names a block size from 0 to 255 (30_encoding.md R91,
R94). Block size 0 is encodable: it decodes, and completes with INVALID_BLOCK_SIZE. -/
def Instr.wellFormed : Instr → Bool
  | .pad _ bs => decide (bs ≤ 255)
  | .unpad _ bs => decide (bs ≤ 255)
  | .encrypt _ => true
  | .decrypt _ => true

end Sys2Proof
end

