-- ==== Sys2Proof/Decode.lean ====
section
/-! DEFINITION. Decoding and encoding of the 32-bit command word (30_encoding.md). -/

namespace Sys2Proof

/-- Why a command word is illegal (30_encoding.md R96, R97; 60_exceptions.md R204). PADECB reports the
three alike, as ILLEGAL_COMMAND. -/
inductive Illegal where
  /-- `RSV1` (bits 31:16) or `RSV0` (bits 7:5) is not zero. -/
  | reservedBits
  /-- `OP` is 0 or 5 to 15. -/
  | reservedOp
  /-- ENCRYPT or DECRYPT with `BS` not zero. -/
  | nonZeroBlockSize
  deriving DecidableEq, Repr

/-- A legal command, or an illegal word and why (30_encoding.md R96). -/
inductive Decoded where
  | legal (i : Instr)
  | illegal (why : Illegal)
  deriving DecidableEq, Repr

/-- `OP`, bits 3:0 (R91). -/
def opField (w : Word) : BitVec 4 := w.extractLsb' 0 4
/-- `SRC`, bit 4 (R91, R93). -/
def srcField (w : Word) : Src := if w.getLsbD 4 then .outBuf else .inBuf
/-- `RSV0`, bits 7:5 (R91). -/
def rsv0Field (w : Word) : BitVec 3 := w.extractLsb' 5 3
/-- `BS`, bits 15:8, as an unsigned number (R91, R94). -/
def bsField (w : Word) : Nat := (w.extractLsb' 8 8).toNat
/-- `RSV1`, bits 31:16 (R91). -/
def rsv1Field (w : Word) : BitVec 16 := w.extractLsb' 16 16

/-- The decoder of 30_encoding.md R96: total on 32-bit words. -/
def decode (w : Word) : Decoded :=
  if rsv1Field w ≠ 0 ∨ rsv0Field w ≠ 0 then .illegal .reservedBits
  else if opField w = 1 then .legal (.pad (srcField w) (bsField w))
  else if opField w = 2 then .legal (.unpad (srcField w) (bsField w))
  else if opField w = 3 then
    if bsField w = 0 then .legal (.encrypt (srcField w)) else .illegal .nonZeroBlockSize
  else if opField w = 4 then
    if bsField w = 0 then .legal (.decrypt (srcField w)) else .illegal .nonZeroBlockSize
  else .illegal .reservedOp

/-- The `SRC` bit of a source (R93). -/
def srcBit : Src → BitVec 1
  | .inBuf => 0
  | .outBuf => 1

/-- The five fields of 30_encoding.md R91 put together, the reserved ones zero. -/
def assembleWord (op : BitVec 4) (src : Src) (bs : BitVec 8) : Word :=
  (0 : BitVec 16) ++ bs ++ (0 : BitVec 3) ++ srcBit src ++ op

/-- The command word of a well-formed instruction (30_encoding.md R99, R100). The block size of an
ill-formed one is taken modulo 256 (DESIGN CHOICE, log entry 16). -/
def encode : Instr → Word
  | .pad src bs => assembleWord 1 src (BitVec.ofNat 8 bs)
  | .unpad src bs => assembleWord 2 src (BitVec.ofNat 8 bs)
  | .encrypt src => assembleWord 3 src 0
  | .decrypt src => assembleWord 4 src 0

/-- One row of the opcode map: a word `c` is the row's command exactly when `c AND mask = match`
(30_encoding.md R99). -/
structure OpcodeRow where
  mnemonic : String
  pattern : Word
  mask : Word
  deriving DecidableEq, Repr

/-- The word `w` matches the row (R99). -/
def OpcodeRow.hit (r : OpcodeRow) (w : Word) : Bool := w &&& r.mask == r.pattern

/-- The opcode map of 30_encoding.md R99. -/
def opcodeRows : List OpcodeRow :=
  [ ⟨"PAD", 0x00000001, 0xFFFF00EF⟩,
    ⟨"UNPAD", 0x00000002, 0xFFFF00EF⟩,
    ⟨"ENCRYPT", 0x00000003, 0xFFFFFFEF⟩,
    ⟨"DECRYPT", 0x00000004, 0xFFFFFFEF⟩ ]

/-- The opcode-table mnemonic of an instruction (R99). -/
def Instr.mnemonic : Instr → String
  | .pad _ _ => "PAD"
  | .unpad _ _ => "UNPAD"
  | .encrypt _ => "ENCRYPT"
  | .decrypt _ => "DECRYPT"

/-- The command word of the bits `w` that an opcode-table row of `nbits` bits gives: a command word is
one 32-bit bus word (30_encoding.md R90), and a bit above `nbits` is 0. -/
def tableWord (nbits w : Nat) : Nat := w % 2 ^ nbits

/-- The instruction the decoder reads from a table word; none where it refuses, and none for a number
that is no 32-bit word (30_encoding.md R90). -/
def decodeTableWord (nbits w : Nat) : Option Instr :=
  if tableWord nbits w < 2 ^ 32 then
    match decode (BitVec.ofNat 32 (tableWord nbits w)) with
    | .legal i => some i
    | .illegal _ => none
  else none

end Sys2Proof
end

