-- ==== Sys2Proof/Config.lean ====
section
/-! DEFINITION. The implementation parameters of 00_scope.md section 4, and the free values. -/

namespace Sys2Proof

/-- What the platform attaches to the cipher port (00_scope.md R3, R8). `external tag` is any block
cipher: its transforms are the bodiless `Config.externalCipher`. `addRot` is the stand-in of the test
configuration T1 (92_eei_decisions.md D35). -/
inductive CipherPort where
  | addRot
  | external (tag : Nat)
  deriving DecidableEq, Repr

/-- The key format predicate `KeyFormatOK` (00_scope.md R7). `external tag` is any predicate: the
bodiless `Config.externalKeyFormat`. `always` holds of every key, as T1 has it. -/
inductive KeyFormat where
  | always
  | external (tag : Nat)
  deriving DecidableEq, Repr

/-- The parameters of one PADECB (00_scope.md R5 to R10), as plain data. They never change: no step
writes them. -/
structure Params where
  /-- `NB`, the cipher block size in bytes (R5). -/
  nb : Nat
  /-- `NK`, the key length in bytes (R6). -/
  nk : Nat
  /-- `KEY_CAP`, the size of the KEY store in bytes (R6). -/
  keyCap : Nat
  /-- `BUF_CAP`, the size in bytes of the IN buffer and of the OUT buffer, each (R9). -/
  bufCap : Nat
  /-- `BASE`, the platform's address of the register page (R10). -/
  base : Nat
  /-- What the cipher port carries, `E` and `D` (R8). -/
  cipher : CipherPort
  /-- `KeyFormatOK` (R7). -/
  keyFormat : KeyFormat
  deriving DecidableEq, Repr

/-- The ranges PADECB requires of its parameters (00_scope.md R5, R6, R9). ADD-ROT is a stand-in for
`NB = NK = 8` only (92_eei_decisions.md D35). -/
abbrev Params.wf (p : Params) : Prop :=
  (1 ≤ p.nb ∧ p.nb ≤ 255) ∧ (1 ≤ p.nk ∧ p.nk ≤ p.keyCap ∧ p.keyCap ≤ 255) ∧
    (1 ≤ p.bufCap ∧ p.bufCap ≤ 2 ^ 24) ∧ (p.cipher = .addRot → p.nb = 8 ∧ p.nk = 8)

/-- Test configuration T1 (00_scope.md section 4, 92_eei_decisions.md D35). -/
def Config.t1 : Params :=
  { nb := 8, nk := 8, keyCap := 16, bufCap := 64, base := 0, cipher := .addRot, keyFormat := .always }

/-- An external block cipher with `nb`-byte blocks under a valid `nk`-byte key: a bijection of the block
space, whose forward direction is `E` and whose inverse is `D` (00_scope.md R8). Nothing else is known
of it, and it stands for the cipher at valid keys only. -/
opaque Config.externalCipher (tag nb nk : Nat) (key : Fin nk → Byte) : Equiv.Perm (Fin nb → Byte)

/-- `E` at a key that is not valid, where nothing is assumed of it but that it is a function
(00_scope.md R8). No command applies it (42_ecb.md R151). -/
opaque Config.forwardAtInvalidKey (port : CipherPort) (nb nk : Nat) (key : Fin nk → Byte)
    (block : Fin nb → Byte) : Fin nb → Byte

/-- `D` at a key that is not valid: any function, in no relation to `Config.forwardAtInvalidKey`
(00_scope.md R8). No command applies it (42_ecb.md R152). -/
opaque Config.inverseAtInvalidKey (port : CipherPort) (nb nk : Nat) (key : Fin nk → Byte)
    (block : Fin nb → Byte) : Fin nb → Byte

/-- An external key format contract (00_scope.md R7): any predicate on keys. -/
opaque Config.externalKeyFormat (tag : Nat) (key : Bytes) : Bool

/-- FREE VALUE: what the unwritten store byte at bus offset `offset` holds for the draw numbered
`draw` (20_memory.md R76, 40_command_lifecycle.md R123, 93_implementation_defined.md U1). -/
opaque Config.freeByte (draw offset : Nat) : Byte

end Sys2Proof
end

