-- ==== Sys2Proof/Machine/State.lean ====
section
/-! DEFINITION. The state of PADECB (10_state.md R20), the host's bus accesses, and the reset state. -/

namespace Sys2Proof.Machine

/-- PADECB has no fault: a bad bus access gets an ERROR response, and a failed command an error code,
and the machine goes on after both (60_exceptions.md R200, R207). So no constructor. -/
inductive Fault where
  deriving DecidableEq, Repr

/-- Why a step is refused. -/
inductive Refusal where
  /-- Raised by an arm of `exec` whose instruction has no meaning yet. No arm raises it: all four
  commands are modelled. Safe: a refused step has no next state to prove anything of. -/
  | notModelled (mnemonic : String)
  deriving DecidableEq, Repr

/-- The number of bytes a bus transfer names: the 32-bit bus can name 1 to 4 (20_memory.md R60). -/
inductive Size where
  | one
  | two
  | three
  | four
  deriving DecidableEq, Repr

/-- One step of the outside world's schedule (20_memory.md R77): a host access (R60), a turn of the
engine (40_command_lifecycle.md R112), or an assertion of the reset input (70_reset_and_hazards.md
R240). `addr` is a byte offset from `BASE`. -/
inductive Event where
  | read (addr : Word) (size : Size)
  | write (addr : Word) (size : Size) (wdata : Word)
  | engine
  | reset
  deriving DecidableEq, Repr

/-- The response code of a host access (20_memory.md R60). -/
inductive Resp where
  | ok
  | error
  deriving DecidableEq, Repr

/-- What a host access returns: a read its response and data, a write its response (20_memory.md R60). -/
inductive Response where
  | read (resp : Resp) (rdata : Word)
  | write (resp : Resp)
  deriving DecidableEq, Repr

/-- The bytes of the stores by bus offset (20_memory.md R62): pairs of an offset and a byte, offsets
strictly rising. An offset that is not listed is UNWRITTEN (10_state.md R20): it holds no value, and a
read of it draws a free one (`Config.freeByte`). -/
abbrev Memory := List Host.Cell

/-- The canonical form: offsets strictly rise. (An unlisted offset holds no value, so no entry can
equal what it reads as.) -/
abbrev Memory.wf (m : Memory) : Prop := m.Pairwise (fun c c' => c.1 < c'.1)

/-- The architectural state of 10_state.md R20, with the parameters it is a state of, and three fields
of the model's own (`agenda`, `resp`, `draws`). -/
structure State where
  /-- The parameters (00_scope.md R5 to R10), constant: ID, CFG and BUFCAP are views of them. -/
  params : Params
  /-- `CTRL.IE`, the interrupt enable (10_state.md R27). -/
  ie : Bool
  /-- `CMD`, the last accepted command word, all 32 bits (R28). -/
  cmd : Word
  /-- `STATUS.BUSY`: a command is in flight (R29). -/
  busy : Bool
  /-- `STATUS.DONE`: a command has completed and is not acknowledged (R30). -/
  done : Bool
  /-- `STATUS.OVR`: a host write was dropped while busy (R32). -/
  ovr : Bool
  /-- `STATUS.ERRCODE`: the result code of the last completed command (R33). -/
  errcode : BitVec 4
  /-- `IN_LEN` (R35). -/
  inLen : Word
  /-- `OUT_LEN` (R36). -/
  outLen : Word
  /-- `KEY_LEN` (R37). -/
  keyLen : Word
  /-- The KEY store, the IN buffer and the OUT buffer (R38 to R40), by bus offset. -/
  mem : Memory
  /-- MODEL'S OWN: the steps the outside world still schedules, first first (20_memory.md R77). -/
  agenda : List Event
  /-- MODEL'S OWN: what the last host access returned (20_memory.md R60); none before the first. -/
  resp : Option Response
  /-- MODEL'S OWN: how many free values of unwritten bytes have been drawn (R123, 20_memory.md R76). -/
  draws : Nat
  deriving DecidableEq, Repr

/-- PADECB with parameters `p` right after power-on or reset (70_reset_and_hazards.md R240, R241). -/
def State.resetWith (p : Params) : State :=
  { params := p, ie := false, cmd := 0, busy := false, done := false, ovr := false, errcode := 0,
    inLen := 0, outLen := 0, keyLen := 0, mem := [], agenda := [], resp := none, draws := 0 }

/-- The machine right after reset, in test configuration T1 (DESIGN CHOICE, log entry 1: the spec
leaves the parameters open; unsafe). -/
def State.reset : State := State.resetWith Config.t1

end Sys2Proof.Machine
end

