-- ==== Sys2Proof/Machine/Ops.lean ====
section
/-! DEFINITION. The named operations over the stores and the registers: reading and writing bytes,
accepting a command, committing a result, the error completion and its acknowledgement, reset. -/

namespace Sys2Proof.Machine

/-- The number of bytes of a transfer size (20_memory.md R60). -/
def Size.bytes : Size → Nat
  | .one => 1
  | .two => 2
  | .three => 3
  | .four => 4

/-- Offset of `KEY[0]` (20_memory.md R62). -/
def keyBase : Nat := 0x100
/-- Offset of `IN[0]` (20_memory.md R62). -/
def inBase : Nat := 0x01000000
/-- Offset of `OUT[0]` (20_memory.md R62). -/
def outBase : Nat := 0x02000000

/-- What the store byte at offset `x` holds: none when it is unwritten (10_state.md R20). -/
def Memory.read : Memory → Nat → Option Byte
  | [], _ => none
  | (a, v) :: m, x => if x = a then some v else Memory.read m x

/-- Write one store byte, keeping the offsets rising. -/
def Memory.write : Memory → Nat → Byte → Memory
  | [], x, v => [(x, v)]
  | (a, u) :: m, x, v =>
    if x < a then (x, v) :: (a, u) :: m
    else if x = a then (x, v) :: m
    else (a, u) :: Memory.write m x v

/-- Write a byte sequence from offset `x` up, index 0 first. -/
def Memory.writeBytes : Memory → Nat → Bytes → Memory
  | m, _, [] => m
  | m, x, v :: vs => Memory.writeBytes (Memory.write m x v) (x + 1) vs

/-- The value a reader of the store byte at offset `x` sees: what was written there, and for an
unwritten byte the free value of the current draw (20_memory.md R76, 40_command_lifecycle.md R123). -/
def readByte (s : State) (x : Nat) : Byte :=
  (Memory.read s.mem x).getD (Config.freeByte s.draws x)

/-- The `n` bytes from offset `x` up, index 0 first (00_scope.md R13). -/
def readBytes (s : State) (x n : Nat) : Bytes :=
  (List.range n).map fun i => readByte s (x + i)

/-- The word whose little-endian bytes are the given ones, zero above (20_memory.md R68, R69). -/
def wordOfBytes : Bytes → Word
  | [] => 0
  | v :: vs => (wordOfBytes vs <<< 8) ||| v.setWidth 32

/-- The `n` low bytes of a word, least significant first (20_memory.md R68, R69). -/
def bytesOfWord (n : Nat) (w : Word) : Bytes :=
  (List.range n).map fun i => w.extractLsb' (8 * i) 8

/-- The error kinds of 60_exceptions.md R200. -/
inductive Err where
  | invalidPadding
  | invalidLength
  | invalidKey
  | illegalCommand
  | invalidBlockSize
  | capacity
  deriving DecidableEq, Repr

/-- The result code of an error (60_exceptions.md R200). -/
def errorCode : Err → BitVec 4
  | .invalidPadding => 1
  | .invalidLength => 2
  | .invalidKey => 3
  | .illegalCommand => 4
  | .invalidBlockSize => 5
  | .capacity => 6

/-- The outcome of a command's pure function, `Ok(d)` or `Err(e)` (00_scope.md R15, R16). -/
inductive Result where
  | ok (d : Bytes)
  | err (e : Err)
  deriving DecidableEq, Repr

/-- `Accept(w)` of 40_command_lifecycle.md R110. -/
def accept (w : Word) (s : State) : State :=
  { s with cmd := w, busy := true, done := false, errcode := 0 }

/-- `CommitOk(d)` of 40_command_lifecycle.md R115. -/
def commitOk (d : Bytes) (s : State) : State :=
  { s with mem := Memory.writeBytes s.mem outBase d, outLen := BitVec.ofNat 32 d.length, errcode := 0 }

/-- `CommitErr(e)` of 40_command_lifecycle.md R116. -/
def commitErr (e : Err) (s : State) : State := { s with errcode := errorCode e }

/-- The end of every completion (40_command_lifecycle.md R117). The command's draw of free bytes is
used up: the next reader of an unwritten byte draws another (20_memory.md R76). -/
def finish (s : State) : State := { s with busy := false, done := true, draws := s.draws + 1 }

/-- What stands for taking an exception: the error completion of 60_exceptions.md R210. It writes
ERRCODE, BUSY and DONE; it saves no pc, changes no mode and transfers control nowhere. -/
def errorCompletion (e : Err) (s : State) : State := finish (commitErr e s)

/-- What stands for the return from one: the host's acknowledgement, a 1 in bit 1 of a word written to
STATUS, which clears DONE and keeps ERRCODE (60_exceptions.md R213, 10_state.md R34). -/
def acknowledge (w : Word) (s : State) : State := { s with done := s.done && !w.getLsbD 1 }

/-- The completion of a command whose function gave `r` (40_command_lifecycle.md R112). -/
def complete (r : Result) (s : State) : State :=
  match r with
  | .ok d => finish (commitOk d s)
  | .err e => errorCompletion e s

/-- `Reset()` of 70_reset_and_hazards.md R240. What stays is outside PADECB's state: the parameters,
the rest of the schedule, the response the host already has, the count of draws. -/
def assertReset (s : State) : State :=
  { State.resetWith s.params with agenda := s.agenda, resp := s.resp, draws := s.draws }

/-- Hand a host access its response (20_memory.md R60). -/
def respond (r : Response) (s : State) : State := { s with resp := some r }

/-- Take the first entry off the schedule. -/
def withAgenda (es : List Event) (s : State) : State := { s with agenda := es }

end Sys2Proof.Machine
end

