-- ==== Sys2Proof/Machine/Flags.lean ====
section
/-! DEFINITION. The flags: STATUS as the host reads and writes it, CTRL, and the interrupt output. -/

namespace Sys2Proof.Machine

/-- One bit of a word from a flag. -/
def flagBit (b : Bool) : BitVec 1 := if b then 1 else 0

/-- STATUS.ERR, a view of ERRCODE (10_state.md R31). -/
def errFlag (s : State) : Bool := s.errcode != 0

/-- What a read of STATUS returns (10_state.md R34). -/
def statusWord (s : State) : Word :=
  (0 : BitVec 20) ++ s.errcode ++ (0 : BitVec 4) ++ flagBit s.ovr ++ flagBit (errFlag s) ++
    flagBit s.done ++ flagBit s.busy

/-- A host write of `w` to STATUS (10_state.md R34): bit 1 acknowledges, bit 3 clears OVR. -/
def writeStatus (w : Word) (s : State) : State :=
  { acknowledge w s with ovr := s.ovr && !w.getLsbD 3 }

/-- What a read of CTRL returns: IE in bit 0, the reserved bits 0 (10_state.md R27, R43). -/
def ctrlWord (s : State) : Word := (0 : BitVec 31) ++ flagBit s.ie

/-- A host write of `w` to CTRL (10_state.md R27). -/
def writeCtrl (w : Word) (s : State) : State := { s with ie := w.getLsbD 0 }

/-- Drop a host write to a frozen target (20_memory.md R72). -/
def overrun (s : State) : State := { s with ovr := true }

/-- The interrupt output, a level (10_state.md R41, 60_exceptions.md R214). -/
def irq (s : State) : Bool := s.done && s.ie

end Sys2Proof.Machine
end

