-- ==== Sys2Proof/Machine/Bus.lean ====
section
/-! DEFINITION. The host port (20_memory.md): the address map, and what a host read and write do. -/

namespace Sys2Proof.Machine

/-- The registers of the register page (10_state.md R23). -/
inductive Reg where
  | id
  | cfg
  | bufcap
  | ctrl
  | cmd
  | status
  | inLen
  | outLen
  | keyLen
  deriving DecidableEq, Repr

/-- The three byte stores (10_state.md R38 to R40). -/
inductive Store where
  | key
  | inBuf
  | outBuf
  deriving DecidableEq, Repr

/-- What a legal access reaches: a register, or the bytes of a store from an offset up
(20_memory.md R61). -/
inductive Target where
  | reg (r : Reg)
  | store (st : Store) (x : Nat)
  deriving DecidableEq, Repr

/-- The register at a register offset (10_state.md R23); none elsewhere. -/
def regAt (x : Nat) : Option Reg :=
  if x = 0x000 then some .id
  else if x = 0x004 then some .cfg
  else if x = 0x008 then some .bufcap
  else if x = 0x010 then some .ctrl
  else if x = 0x014 then some .cmd
  else if x = 0x018 then some .status
  else if x = 0x01C then some .inLen
  else if x = 0x020 then some .outLen
  else if x = 0x024 then some .keyLen
  else none

/-- A store's window base (20_memory.md R62). -/
def storeBase : Store → Nat
  | .key => keyBase
  | .inBuf => inBase
  | .outBuf => outBase

/-- A store's capacity in bytes (20_memory.md R62). -/
def storeCap (p : Params) : Store → Nat
  | .key => p.keyCap
  | .inBuf => p.bufCap
  | .outBuf => p.bufCap

/-- An `n`-byte access at `x` is in range of the store's window and aligned (20_memory.md R65). -/
def inWindow (p : Params) (st : Store) (n x : Nat) : Bool :=
  decide (storeBase st ≤ x) && decide (x - storeBase st + n ≤ storeCap p st) &&
    (decide (n ≠ 4) || decide ((x - storeBase st) % 4 = 0))

/-- Cases 1 and 2 of 20_memory.md R73: the target of an `n`-byte access at offset `x`; none where the
size is illegal (R63), the offset unmapped (R66), or the access illegal for its target (R64, R65). -/
def target (p : Params) (n x : Nat) : Option Target :=
  if n ≠ 1 ∧ n ≠ 4 then none
  else if (regAt x).isSome then (if n = 4 then (regAt x).map .reg else none)
  else if inWindow p .key n x then some (.store .key x)
  else if inWindow p .inBuf n x then some (.store .inBuf x)
  else if inWindow p .outBuf n x then some (.store .outBuf x)
  else none

/-- The read-only targets (20_memory.md R70). -/
def readOnly : Target → Bool
  | .reg .id | .reg .cfg | .reg .bufcap | .reg .outLen => true
  | .store .outBuf _ => true
  | .reg .ctrl | .reg .cmd | .reg .status | .reg .inLen | .reg .keyLen => false
  | .store .key _ | .store .inBuf _ => false

/-- The frozen targets (20_memory.md R72). -/
def frozen : Target → Bool
  | .reg .cmd | .reg .inLen | .reg .keyLen => true
  | .store .key _ | .store .inBuf _ => true
  | .reg .id | .reg .cfg | .reg .bufcap | .reg .ctrl | .reg .status | .reg .outLen => false
  | .store .outBuf _ => false

/-- The constant ID register, "PAD1" (10_state.md R24). -/
def idWord : Word := 0x50414431

/-- CFG: the reserved byte, KEYCAP, NK and NB (10_state.md R25). -/
def cfgWord (p : Params) : Word :=
  (0 : BitVec 8) ++ BitVec.ofNat 8 p.keyCap ++ BitVec.ofNat 8 p.nk ++ BitVec.ofNat 8 p.nb

/-- BUFCAP (10_state.md R26). -/
def bufcapWord (p : Params) : Word := BitVec.ofNat 32 p.bufCap

/-- What a read of a register returns (10_state.md R24 to R37). -/
def readReg (r : Reg) (s : State) : Word :=
  match r with
  | .id => idWord
  | .cfg => cfgWord s.params
  | .bufcap => bufcapWord s.params
  | .ctrl => ctrlWord s
  | .cmd => s.cmd
  | .status => statusWord s
  | .inLen => s.inLen
  | .outLen => s.outLen
  | .keyLen => s.keyLen

/-- What an `n`-byte read of a target returns: the register, the store's bytes in little-endian order
(20_memory.md R68, R69), and 0 for the KEY store (R71). -/
def readTarget (t : Target) (n : Nat) (s : State) : Word :=
  match t with
  | .reg r => readReg r s
  | .store .key _ => 0
  | .store .inBuf x => wordOfBytes (readBytes s x n)
  | .store .outBuf x => wordOfBytes (readBytes s x n)

/-- Write a length register as it is (10_state.md R35). -/
def writeInLen (w : Word) (s : State) : State := { s with inLen := w }
/-- Write a length register as it is (10_state.md R37). -/
def writeKeyLen (w : Word) (s : State) : State := { s with keyLen := w }
/-- Write the low `n` bytes of `w` to a store from offset `x` up (20_memory.md R68, R69). -/
def writeStore (x n : Nat) (w : Word) (s : State) : State :=
  { s with mem := Memory.writeBytes s.mem x (bytesOfWord n w) }

/-- A write that is performed (case 5 of 20_memory.md R73). A read-only target takes none (R70). -/
def writeTarget (t : Target) (n : Nat) (w : Word) (s : State) : State :=
  match t with
  | .reg .ctrl => writeCtrl w s
  | .reg .cmd => accept w s
  | .reg .status => writeStatus w s
  | .reg .inLen => writeInLen w s
  | .reg .keyLen => writeKeyLen w s
  | .store .key x => writeStore x n w s
  | .store .inBuf x => writeStore x n w s
  | .reg .id | .reg .cfg | .reg .bufcap | .reg .outLen => s
  | .store .outBuf _ => s

/-- One draw of free values is used up: two reads of an unwritten byte may differ (20_memory.md R76). -/
def nextDraw (s : State) : State := { s with draws := s.draws + 1 }

/-- A host read (20_memory.md R60, R73): the target's data with OK, or 0 with ERROR (R67). -/
def hostRead (addr : Word) (size : Size) (s : State) : State :=
  match target s.params size.bytes addr.toNat with
  | none => respond (.read .error 0) s
  | some t => respond (.read .ok (readTarget t size.bytes s)) (nextDraw s)

/-- A host write (20_memory.md R60), in the order of cases of R73. -/
def hostWrite (addr : Word) (size : Size) (wdata : Word) (s : State) : State :=
  match target s.params size.bytes addr.toNat with
  | none => respond (.write .error) s
  | some t =>
    if readOnly t then respond (.write .error) s
    else if frozen t && s.busy then respond (.write .ok) (overrun s)
    else respond (.write .ok) (writeTarget t size.bytes wdata s)

end Sys2Proof.Machine
end

