-- ==== Sys2Proof/Machine/Operands.lean ====
section
/-! DEFINITION. The operands of a command: its source bytes and the key, and the checks every command
shares. -/

namespace Sys2Proof.Machine

/-- The length register of a source (40_command_lifecycle.md R113). -/
def sourceLen (src : Src) (s : State) : Nat :=
  match src with
  | .inBuf => s.inLen.toNat
  | .outBuf => s.outLen.toNat

/-- The offset of a source's byte 0 (40_command_lifecycle.md R113, 20_memory.md R62). -/
def sourceBase : Src → Nat
  | .inBuf => inBase
  | .outBuf => outBase

/-- `S[0..L)`, the bytes the command consumes (40_command_lifecycle.md R113, R114). -/
def sourceBytes (src : Src) (s : State) : Bytes := readBytes s (sourceBase src) (sourceLen src s)

/-- `KEY[0..NK)` (42_ecb.md R151). -/
def keyBytes (s : State) : Bytes := readBytes s keyBase s.params.nk

/-- `KeyFormatOK(k)` (00_scope.md R7). -/
def keyFormatOk (p : Params) (k : Bytes) : Bool :=
  match p.keyFormat with
  | .always => true
  | .external tag => Config.externalKeyFormat tag k

/-- `KeyValid(n, k)` (00_scope.md R7), of a key's `NK` bytes. -/
def keyValid (p : Params) (n : Nat) (k : Bytes) : Bool := decide (n = p.nk) && keyFormatOk p k

/-- Steps 2 to 4 of `Execute` (40_command_lifecycle.md R114): the block size, the source's capacity,
then the operation on the source bytes. -/
def execute (blockSizeZero : Bool) (src : Src) (op : Bytes → Result) (s : State) : Result :=
  if blockSizeZero then .err .invalidBlockSize
  else if sourceLen src s > s.params.bufCap then .err .capacity
  else op (sourceBytes src s)

end Sys2Proof.Machine
end

