-- ==== Sys2Proof/Machine/Ecb.lean ====
section
/-! DEFINITION. The ECB Mode Driver (42_ecb.md): ENCRYPT and DECRYPT, over the cipher port. -/

namespace Sys2Proof.Machine

/-- A byte sequence as an `n`-byte tuple, as the cipher port takes keys and blocks. -/
def tuple (n : Nat) (d : Bytes) : Fin n → Byte := fun i => d.getD i 0

/-- ADD-ROT's `E` on an `n`-byte block: `E(k, x)[j] = x[(j+1) mod n] + k[j]` (92_eei_decisions.md D35). -/
def addRotE (n : Nat) (k x : Bytes) : Bytes :=
  (List.range n).map fun j => x.getD ((j + 1) % n) 0 + k.getD j 0

/-- ADD-ROT's `D` on an `n`-byte block: `D(k, y)[j] = y[(j-1) mod n] - k[(j-1) mod n]`
(92_eei_decisions.md D35). -/
def addRotD (n : Nat) (k y : Bytes) : Bytes :=
  (List.range n).map fun j => y.getD ((j + n - 1) % n) 0 - k.getD ((j + n - 1) % n) 0

/-- `E(k, x)`, the forward transform at the cipher port (00_scope.md R8); at a key that is not valid,
whatever the port carries, an unknown function. -/
def encryptBlock (p : Params) (k x : Bytes) : Bytes :=
  if keyFormatOk p k = true then
    match p.cipher with
    | .addRot => addRotE p.nb k x
    | .external tag => List.ofFn (Config.externalCipher tag p.nb p.nk (tuple p.nk k) (tuple p.nb x))
  else List.ofFn (Config.forwardAtInvalidKey p.cipher p.nb p.nk (tuple p.nk k) (tuple p.nb x))

/-- `D(k, y)`, the inverse transform at the cipher port (00_scope.md R8); at a key that is not valid,
whatever the port carries, an unknown function. -/
def decryptBlock (p : Params) (k y : Bytes) : Bytes :=
  if keyFormatOk p k = true then
    match p.cipher with
    | .addRot => addRotD p.nb k y
    | .external tag =>
      List.ofFn ((Config.externalCipher tag p.nb p.nk (tuple p.nk k)).symm (tuple p.nb y))
  else List.ofFn (Config.inverseAtInvalidKey p.cipher p.nb p.nk (tuple p.nk k) (tuple p.nb y))

/-- `blk_i = d[i*NB .. (i+1)*NB)` (42_ecb.md R150). -/
def blockAt (nb : Nat) (d : Bytes) (i : Nat) : Bytes := (d.drop (i * nb)).take nb

/-- The block splitter `blocks(d)` (42_ecb.md R150). -/
def blocks (nb : Nat) (d : Bytes) : List Bytes := (List.range (d.length / nb)).map (blockAt nb d)

/-- The body `ecbEnc` and `ecbDec` share (42_ecb.md R151, R152): the length check, the two key checks,
then the transform of every block under the key, in index order (R156). -/
def ecb (f : Bytes → Bytes → Bytes) (p : Params) (keyLen : Nat) (k : Bytes) (d : Bytes) : Result :=
  if d.length % p.nb ≠ 0 then .err .invalidLength
  else if keyLen ≠ p.nk then .err .invalidKey
  else if keyFormatOk p k = false then .err .invalidKey
  else .ok ((blocks p.nb d).flatMap (f k))

/-- `ecbEnc(d, KL, K)` (42_ecb.md R151); `k` is `K[0..NK)`. -/
def ecbEnc (p : Params) (keyLen : Nat) (k : Bytes) (d : Bytes) : Result :=
  ecb (encryptBlock p) p keyLen k d

/-- `ecbDec(d, KL, K)` (42_ecb.md R152); `k` is `K[0..NK)`. -/
def ecbDec (p : Params) (keyLen : Nat) (k : Bytes) (d : Bytes) : Result :=
  ecb (decryptBlock p) p keyLen k d

/-- ENCRYPT (42_ecb.md R153): the completion of an accepted `ENCRYPT src`. -/
def execEncrypt (src : Src) (s : State) : Host.Outcome State Fault Refusal :=
  .next (complete (execute false src (ecbEnc s.params s.keyLen.toNat (keyBytes s)) s) s)

/-- DECRYPT (42_ecb.md R154): the completion of an accepted `DECRYPT src`. -/
def execDecrypt (src : Src) (s : State) : Host.Outcome State Fault Refusal :=
  .next (complete (execute false src (ecbDec s.params s.keyLen.toNat (keyBytes s)) s) s)

end Sys2Proof.Machine
end

