-- ==== Sys2Proof/Machine/Padding.lean ====
section
/-! DEFINITION. The Padding Codec (41_padding.md): PAD and UNPAD. -/

namespace Sys2Proof.Machine

/-- `pad_len` (41_padding.md R130). -/
def padLen (d : Bytes) (b : Nat) : Nat := b - d.length % b

/-- `padBytes(d, b)` (41_padding.md R130). -/
def padBytes (d : Bytes) (b : Nat) : Bytes :=
  d ++ List.replicate (padLen d b) (BitVec.ofNat 8 (padLen d b))

/-- `unpadBytes(d, b)` (41_padding.md R133). -/
def unpadBytes (d : Bytes) (b : Nat) : Result :=
  match d.getLast? with
  | none => .err .invalidPadding
  | some last =>
    if last.toNat = 0 then .err .invalidPadding
    else if last.toNat > b then .err .invalidPadding
    else if last.toNat > d.length then .err .invalidPadding
    else if (d.drop (d.length - last.toNat)).any (fun v => v != last) then .err .invalidPadding
    else .ok (d.take (d.length - last.toNat))

/-- `PadCmd(d, b)` (41_padding.md R134). -/
def padCmd (p : Params) (b : Nat) (d : Bytes) : Result :=
  if (padBytes d b).length > p.bufCap then .err .capacity else .ok (padBytes d b)

/-- PAD (41_padding.md R134): the completion of an accepted `PAD bs, src`. -/
def execPad (src : Src) (bs : Nat) (s : State) : Host.Outcome State Fault Refusal :=
  .next (complete (execute (decide (bs = 0)) src (padCmd s.params bs) s) s)

/-- UNPAD (41_padding.md R135): the completion of an accepted `UNPAD bs, src`. -/
def execUnpad (src : Src) (bs : Nat) (s : State) : Host.Outcome State Fault Refusal :=
  .next (complete (execute (decide (bs = 0)) src (fun d => unpadBytes d bs) s) s)

end Sys2Proof.Machine
end

