-- ==== Sys2Proof/Machine/Dispatch.lean ====
section
/-! DEFINITION. What the completion of each command does: one arm per constructor of `Instr`
(40_command_lifecycle.md R112, R114). -/

namespace Sys2Proof.Machine

def exec (i : Instr) (s : State) : Host.Outcome State Fault Refusal :=
  match i with
  | .pad src bs => Sys2Proof.Machine.execPad src bs s
  | .unpad src bs => Sys2Proof.Machine.execUnpad src bs s
  | .encrypt src => Sys2Proof.Machine.execEncrypt src s
  | .decrypt src => Sys2Proof.Machine.execDecrypt src s

end Sys2Proof.Machine
end

