-- ==== Sys2Proof/Machine/Engine.lean ====
section
/-! DEFINITION. The engine's step, and the interleaving of host accesses, engine steps and resets. -/

namespace Sys2Proof.Machine

/-- The engine's turn (40_command_lifecycle.md R111, R112): enabled exactly when `BUSY = 1`, it completes
the command in CMD, an illegal word by the error completion (30_encoding.md R97). With `BUSY = 0` it
is idle, and every state survives (60_exceptions.md R223). -/
def engineStep (s : State) : Host.Outcome State Fault Refusal :=
  if s.busy then
    match decode s.cmd with
    | .legal i => exec i s
    | .illegal _ => .next (errorCompletion .illegalCommand s)
  else .next s

/-- One step of the interleaving (20_memory.md R77): the schedule's first entry, and the engine's turn
when the schedule is empty, so that an accepted command always completes (40_command_lifecycle.md
R111). DESIGN CHOICE, log entry 2. -/
def advance (s : State) : Host.Outcome State Fault Refusal :=
  match s.agenda with
  | [] => engineStep s
  | .read addr size :: es => .next (hostRead addr size (withAgenda es s))
  | .write addr size wdata :: es => .next (hostWrite addr size wdata (withAgenda es s))
  | .engine :: es => engineStep (withAgenda es s)
  | .reset :: es => .next (assertReset (withAgenda es s))

/-- The schedule with the engine's turn first (the empty schedule already gives it the next turn). -/
def engineFirst : List Event → List Event
  | [] => []
  | e :: es => .engine :: e :: es

/-- `s` with the command word `w` accepted (40_command_lifecycle.md R110) and the engine's turn next. -/
def placeCommand (w : Word) (s : State) : State := withAgenda (engineFirst s.agenda) (accept w s)

end Sys2Proof.Machine
end

