-- ==== Sys2Proof/Machine/Step.lean ====
section
/-! DEFINITION. The one step function, and placing a command where the next step runs it. -/

namespace Sys2Proof.Machine

/-- One step of PADECB (20_memory.md R77). -/
def step (s : State) : Host.Outcome State Fault Refusal := advance s

/-- `s` with the command word of a table row accepted, and nothing before the engine's turn: PADECB
fetches nothing (10_state.md R22), and the nearest thing to a fetch is the capture of CMD at
acceptance (20_memory.md R83). -/
def State.withFetchWord (s : State) (nbits w : Nat) : State :=
  placeCommand (BitVec.ofNat 32 (tableWord nbits w)) s

end Sys2Proof.Machine
end

