-- ==== Sys2Proof/Machine/HostProgram.lean ====
section
/-! DEFINITION. The notation of host programs (30_encoding.md R100, R101) as schedules, and the placing
of PADECB at the platform's `BASE` (00_scope.md R10). -/

namespace Sys2Proof.Machine

/-- A command as the assembler writes it: the source may be left out, and an illegal word is written
`.word` (30_encoding.md R100). -/
inductive AsmCommand where
  | pad (bs : Nat) (src : Option Src)
  | unpad (bs : Nat) (src : Option Src)
  | encrypt (src : Option Src)
  | decrypt (src : Option Src)
  | word (w : Word)
  deriving DecidableEq, Repr

/-- The word of an assembled command; an absent source is IN (30_encoding.md R100). R100 admits block
sizes from 0 to 255 only; one above is taken modulo 256, so that `PAD 256` gives the word of `PAD 0`
(DESIGN CHOICE, log entry 16; unsafe for a claim about such a command). -/
def assemble : AsmCommand → Word
  | .pad bs src => encode (.pad (src.getD .inBuf) bs)
  | .unpad bs src => encode (.unpad (src.getD .inBuf) bs)
  | .encrypt src => encode (.encrypt (src.getD .inBuf))
  | .decrypt src => encode (.decrypt (src.getD .inBuf))
  | .word w => w

/-- `WR32 off, value` (30_encoding.md R101). An offset of more than 32 bits, here and below, is no bus
offset and is taken modulo 2^32 (DESIGN CHOICE, log entry 16). -/
def wr32 (off : Nat) (v : Word) : Event := .write (BitVec.ofNat 32 off) .four v
/-- `WR8 off, value` (30_encoding.md R101). -/
def wr8 (off : Nat) (v : Word) : Event := .write (BitVec.ofNat 32 off) .one v
/-- `RD32 off` (30_encoding.md R101). -/
def rd32 (off : Nat) : Event := .read (BitVec.ofNat 32 off) .four
/-- `RD8 off` (30_encoding.md R101). -/
def rd8 (off : Nat) : Event := .read (BitVec.ofNat 32 off) .one

/-- `ISSUE command`: a write of its word to CMD (30_encoding.md R101). -/
def issue (c : AsmCommand) : Event := wr32 0x014 (assemble c)

/-- `ACK`: a write of 1 to STATUS bit 1 (30_encoding.md R101). -/
def ack : Event := wr32 0x018 0x00000002

/-- `WAIT` where the host sees `DONE = 0` in `n` reads of STATUS before the engine's turn and 1 in the
read after it (30_encoding.md R101). The loop is the host's; `n` is any number (R111). -/
def waitAfter (n : Nat) : List Event := List.replicate n (rd32 0x018) ++ [.engine, rd32 0x018]

/-- The writes of a byte sequence from offset `x` up: full words, then tail bytes (R101). -/
def storeBytes : Nat → Bytes → List Event
  | x, a :: b :: c :: d :: vs => wr32 x (wordOfBytes [a, b, c, d]) :: storeBytes (x + 4) vs
  | x, v :: vs => wr8 x (v.setWidth 32) :: storeBytes (x + 1) vs
  | _, [] => []

/-- `LOADIN bytes` (30_encoding.md R101); a length of more than 32 bits is taken modulo 2^32 (log entry
16). -/
def loadIn (d : Bytes) : List Event := storeBytes inBase d ++ [wr32 0x01C (BitVec.ofNat 32 d.length)]

/-- `LOADKEY bytes` (30_encoding.md R101); the length as for `loadIn`. -/
def loadKey (k : Bytes) : List Event := storeBytes keyBase k ++ [wr32 0x024 (BitVec.ofNat 32 k.length)]

/-- The platform address of an offset (00_scope.md R10). -/
def platformAddress (p : Params) (off : Word) : Nat := p.base + off.toNat

/-- The offset a platform address reaches; none outside the map at `BASE` (00_scope.md R10,
20_memory.md R62). -/
def platformOffset (p : Params) (a : Nat) : Option Word :=
  if p.base ≤ a ∧ a - p.base < 2 ^ 32 then some (BitVec.ofNat 32 (a - p.base)) else none

end Sys2Proof.Machine
end

