-- ==== Sys2Proof/Safety.lean ====
section
/-! DEFINITION. The invariant of the reachable states, and the terms in which statements say what a
completion changes. -/

namespace Sys2Proof.Machine

/-- Offset `x` is a byte of the KEY store, the IN buffer or the OUT buffer (20_memory.md R62). -/
abbrev isStoreByte (p : Params) (x : Nat) : Prop :=
  (keyBase ≤ x ∧ x < keyBase + p.keyCap) ∨ (inBase ≤ x ∧ x < inBase + p.bufCap) ∨
    (outBase ≤ x ∧ x < outBase + p.bufCap)

/-- What every reachable state satisfies. -/
structure Invariant (s : State) : Prop where
  /-- The parameters are in their ranges (00_scope.md R5, R6, R9). -/
  params_wf : s.params.wf
  /-- The stores are in canonical form. -/
  mem_wf : Memory.wf s.mem
  /-- Only bytes that exist hold a value (20_memory.md R62). -/
  mem_mapped : ∀ c ∈ s.mem, isStoreByte s.params c.1
  /-- `OUT_LEN <= BUF_CAP` (10_state.md R46). -/
  outLen_le : s.outLen.toNat ≤ s.params.bufCap
  /-- `DONE = 1` and `BUSY = 1` never hold together (10_state.md R30). -/
  not_busy_and_done : ¬(s.busy = true ∧ s.done = true)
  /-- Only the codes 0 to 6 are ever in ERRCODE (10_state.md R33). -/
  errcode_le : s.errcode.toNat ≤ 6
  /-- While `BUSY = 1`, ERRCODE reads 0 (10_state.md R33). -/
  busy_errcode : s.busy = true → s.errcode = 0

/-- The next step is the engine's turn: the schedule is empty, or says so; `es` is the schedule after
it. -/
def engineTurn (s : State) (es : List Event) : Prop :=
  (s.agenda = [] ∧ es = []) ∨ s.agenda = .engine :: es

/-- What no command's completion changes, success or error: the parameters, CTRL, CMD, OVR, IN_LEN,
KEY_LEN, the schedule and the last response. -/
structure CommandFrame (s t : State) : Prop where
  params : t.params = s.params
  ie : t.ie = s.ie
  cmd : t.cmd = s.cmd
  ovr : t.ovr = s.ovr
  inLen : t.inLen = s.inLen
  keyLen : t.keyLen = s.keyLen
  agenda : t.agenda = s.agenda
  resp : t.resp = s.resp

/-- `t` is `s` after a completion with success and result `d` (40_command_lifecycle.md R115, R117):
OUT holds `d`, every other store byte is as before. -/
structure Succeeded (s t : State) (d : Bytes) : Prop where
  frame : CommandFrame s t
  busy : t.busy = false
  done : t.done = true
  errcode : t.errcode = 0
  outLen : t.outLen.toNat = d.length
  out : ∀ j, j < d.length → Memory.read t.mem (outBase + j) = d[j]?
  rest : ∀ x, (x < outBase ∨ outBase + d.length ≤ x) → Memory.read t.mem x = Memory.read s.mem x

/-- `t` is `s` after a completion with the error code `code` (40_command_lifecycle.md R116, R117). -/
structure Failed (s t : State) (code : BitVec 4) : Prop where
  frame : CommandFrame s t
  busy : t.busy = false
  done : t.done = true
  errcode : t.errcode = code
  outLen : t.outLen = s.outLen
  mem : t.mem = s.mem

/-- The last `p` bytes of `d` are a padding footer for block size `b`: `p` is from 1 to `b`, at most
the length, and each of the last `p` bytes equals `p` (41_padding.md R133). -/
def hasPadding (d : Bytes) (b p : Nat) : Prop :=
  1 ≤ p ∧ p ≤ b ∧ p ≤ d.length ∧ ∀ j, d.length - p ≤ j → j < d.length → (d[j]?).map BitVec.toNat = some p

/-- The command word `w` matches no row of the opcode map: one of the four kinds of 60_exceptions.md
R204, each field read off the word's number. -/
abbrev isIllegalWord (w : Word) : Prop :=
  w.toNat % 16 = 0 ∨ 4 < w.toNat % 16 ∨ w.toNat / 32 % 8 ≠ 0 ∨ w.toNat / 65536 ≠ 0 ∨
    (3 ≤ w.toNat % 16 ∧ w.toNat / 256 % 256 ≠ 0)

/-- The source that bit 4 of a command word selects (30_encoding.md R93). -/
def wordSource (w : Word) : Src := if w.toNat / 16 % 2 = 1 then .outBuf else .inBuf

/-- The key in the KEY store is valid (00_scope.md R7). -/
abbrev keyOk (s : State) : Prop := s.keyLen.toNat = s.params.nk ∧ keyFormatOk s.params (keyBytes s) = true

/-- The same operation and block size with another source. -/
def withSource (src : Src) : Instr → Instr
  | .pad _ bs => .pad src bs
  | .unpad _ bs => .unpad src bs
  | .encrypt _ => .encrypt src
  | .decrypt _ => .decrypt src

/-- The instruction uses the key (42_ecb.md R151, R152). -/
def usesKey : Instr → Bool
  | .pad _ _ => false
  | .unpad _ _ => false
  | .encrypt _ => true
  | .decrypt _ => true

/-- Every byte from offset `x` up holds a written value, and these are the bytes `d`. -/
def holds (s : State) (x : Nat) (d : Bytes) : Prop :=
  ∀ j, j < d.length → Memory.read s.mem (x + j) = d[j]?

end Sys2Proof.Machine
end

