-- ==== Sys2Proof/Certificates/Slice0/Obligations.lean ====
section
/-! DEFINITION. The statements about the model: what the numbered rules of the spec say it does. -/

open Sys2Proof Sys2Proof.Machine

/-! ## Encoding -/

/-- Decoding the word of a well-formed instruction gives the instruction back, every operand at every
value its field admits (30_encoding.md R96, R100). -/
def Obligations.DecodeOfEncodeIsTheInstruction : Prop :=
  ∀ i : Instr, i.wellFormed = true → decode (encode i) = .legal i

/-- A legal word decodes to a well-formed instruction whose word it is: no bit is dropped (30_encoding.md
R91, R96). -/
def Obligations.EncodeOfDecodeIsTheWord : Prop :=
  ∀ (w : Word) (i : Instr), decode w = .legal i → i.wellFormed = true ∧ encode i = w

/-- R98: a legal word matches exactly one row of the opcode map, its own instruction's; an illegal word
matches none. -/
def Obligations.LegalWordMatchesExactlyOneRow : Prop :=
  ∀ w : Word,
    (∀ i, decode w = .legal i →
      (opcodeRows.filter (fun r => r.hit w)).map OpcodeRow.mnemonic = [i.mnemonic]) ∧
    (∀ why, decode w = .illegal why → opcodeRows.filter (fun r => r.hit w) = [])

/-- The example words of 30_encoding.md R100, and one illegal word of each kind (R204), read off the
field table of R91. -/
def Obligations.SampleWordsDecodeAsWritten : Prop :=
  decode 0x00000801 = .legal (.pad .inBuf 8) ∧ decode 0x00000811 = .legal (.pad .outBuf 8) ∧
  decode 0x00000812 = .legal (.unpad .outBuf 8) ∧ decode 0x00000013 = .legal (.encrypt .outBuf) ∧
  decode 0x00000014 = .legal (.decrypt .outBuf) ∧ decode 0x00000003 = .legal (.encrypt .inBuf) ∧
  decode 0x00000000 = .illegal .reservedOp ∧ decode 0x00000803 = .illegal .nonZeroBlockSize ∧
  decode 0x00010801 = .illegal .reservedBits ∧ decode 0x00000821 = .illegal .reservedBits

/-! ## The engine's step -/

/-- The engine's turn with a command in flight is `exec` of the instruction that CMD decodes to, at the
state with the turn taken off the schedule (40_command_lifecycle.md R111, R112; the schedule is the
model's, log entry 2). -/
def Obligations.EngineTurnRunsTheDecodedCommand : Prop :=
  ∀ (s : State) (es : List Event) (i : Instr), engineTurn s es → s.busy = true →
    decode s.cmd = .legal i → step s = exec i { s with agenda := es }

/-- An illegal word written to CMD while idle is accepted, stays readable in CMD, and its completion
reports ILLEGAL_COMMAND with no other effect (30_encoding.md R97, 60_exceptions.md R204). The schedule
(log entry 2), the response of the write (log entry 8) and the count of free draws, which the completion
moves on by one (log entry 3), are the model's own. -/
def Obligations.IllegalWordIsAcceptedAndCompletesAsIllegal : Prop :=
  ∀ (s : State) (w : Word) (es : List Event), s.busy = false → isIllegalWord w →
    s.agenda = .write 0x014 .four w :: .engine :: es →
    ∃ t, step s = .next t ∧ t.cmd = w ∧ t.busy = true ∧
      step t = .next { s with cmd := w, busy := false, done := true, errcode := 4, agenda := es,
                              resp := some (.write .ok), draws := s.draws + 1 }

/-- R110: a word write to CMD while idle accepts it, whatever the word, and changes nothing else; while
a command is in flight it is dropped and sets OVR, and nothing else changes. -/
def Obligations.CmdWriteAcceptsOrIsDropped : Prop :=
  ∀ (s : State) (w : Word) (es : List Event), s.agenda = .write 0x014 .four w :: es →
    (s.busy = false →
      step s = .next { s with cmd := w, busy := true, done := false, errcode := 0, agenda := es,
                              resp := some (.write .ok) }) ∧
    (s.busy = true →
      step s = .next { s with ovr := true, agenda := es, resp := some (.write .ok) })

/-- The engine's turn with a command in flight answers a state with BUSY 0 and DONE 1, whatever the word
in CMD (40_command_lifecycle.md R117; the schedule is the model's, log entry 2). -/
def Obligations.EveryCompletionClearsBusyAndSetsDone : Prop :=
  ∀ (s : State) (es : List Event), engineTurn s es → s.busy = true →
    ∃ t, step s = .next t ∧ t.busy = false ∧ t.done = true

/-- A completion with an error leaves OUT, OUT_LEN, IN, IN_LEN, KEY and KEY_LEN, and everything but
ERRCODE, BUSY and DONE, as they were (40_command_lifecycle.md R116, 60_exceptions.md R210, R211; the
schedule is the model's, log entry 2). -/
def Obligations.ErrorCompletionChangesOnlyItsCode : Prop :=
  ∀ (s : State) (es : List Event), engineTurn s es → s.busy = true →
    ∀ t, step s = .next t → t.errcode ≠ 0 →
      t = { s with errcode := t.errcode, busy := false, done := true, agenda := es, draws := t.draws }

/-- A completion writes nothing but OUT_LEN, ERRCODE, BUSY, DONE and, on success, `OUT[0..OUT_LEN)`: the
frame of all four commands (40_command_lifecycle.md R115 to R117, R122). -/
def Obligations.CommandsWriteOnlyTheirResult : Prop :=
  ∀ (i : Instr) (s t : State), s.params.wf → exec i s = .next t →
    CommandFrame s t ∧ t.busy = false ∧ t.done = true ∧
    (t.errcode = 0 → t.outLen.toNat ≤ s.params.bufCap ∧
      ∀ x, (x < outBase ∨ outBase + t.outLen.toNat ≤ x) →
        Memory.read t.mem x = Memory.read s.mem x) ∧
    (t.errcode ≠ 0 → t.outLen = s.outLen ∧ ∀ x, Memory.read t.mem x = Memory.read s.mem x)

/-- The result code of a completion is the first that applies in the order of 60_exceptions.md R209,
and 0 when none does; each condition is read off the command word and the state. (The schedule is the
model's, log entry 2.) -/
def Obligations.ErrorPriorityIsTheListedOrder : Prop :=
  ∀ (s : State) (es : List Event), engineTurn s es → s.busy = true →
    ∃ t, step s = .next t ∧
      t.errcode =
        (if isIllegalWord s.cmd then 4
         else if s.cmd.toNat % 16 ≤ 2 ∧ s.cmd.toNat / 256 % 256 = 0 then 5
         else if sourceLen (wordSource s.cmd) s > s.params.bufCap then 6
         else if s.cmd.toNat % 16 = 1 then
           (if (padBytes (sourceBytes (wordSource s.cmd) s) (s.cmd.toNat / 256 % 256)).length >
              s.params.bufCap then 6 else 0)
         else if s.cmd.toNat % 16 = 2 then
           (match unpadBytes (sourceBytes (wordSource s.cmd) s) (s.cmd.toNat / 256 % 256) with
            | .ok _ => 0
            | .err _ => 1)
         else if sourceLen (wordSource s.cmd) s % s.params.nb ≠ 0 then 2
         else if keyValid s.params s.keyLen.toNat (keyBytes s) = false then 3
         else 0)

/-- R120: what a command commits depends only on the command, its source bytes and, for ENCRYPT
and DECRYPT, the key: two states that agree on these, even with the source in another buffer, get the
same result code and the same result bytes. -/
def Obligations.ResultDependsOnlyOnSourceAndKey : Prop :=
  ∀ (i : Instr) (src : Src) (s s' t t' : State), s.params.wf → s'.params = s.params →
    sourceBytes src s' =
      (match i with
       | .pad src₀ _ | .unpad src₀ _ | .encrypt src₀ | .decrypt src₀ => sourceBytes src₀ s) →
    (usesKey i = true → s'.keyLen = s.keyLen ∧ keyBytes s' = keyBytes s) →
    exec i s = .next t → exec (withSource src i) s' = .next t' →
    t'.errcode = t.errcode ∧
    (t.errcode = 0 → t'.outLen = t.outLen ∧
      ∀ j, j < t.outLen.toNat →
        Memory.read t'.mem (outBase + j) = Memory.read t.mem (outBase + j))

/-! ## PAD and UNPAD -/

/-- PAD completes with the padded source in OUT when the block size is not 0 and the result fits: the
source bytes, then `pad_len` bytes each equal to `pad_len`, from 1 to `BS` (41_padding.md R130, R134).
For the source in IN and in OUT. -/
def Obligations.PadAppendsPadLenBytes : Prop :=
  ∀ (src : Src) (bs : Nat) (s : State), s.params.wf → 1 ≤ bs → bs ≤ 255 →
    sourceLen src s + (bs - sourceLen src s % bs) ≤ s.params.bufCap →
    ∃ t, exec (.pad src bs) s = .next t ∧
      Succeeded s t (sourceBytes src s ++
        List.replicate (bs - sourceLen src s % bs) (BitVec.ofNat 8 (bs - sourceLen src s % bs))) ∧
      t.outLen.toNat = bs * (sourceLen src s / bs + 1)

/-- PAD completes with INVALID_BLOCK_SIZE for block size 0, and with CAPACITY when its source or its
result is longer than the buffer (41_padding.md R134, 60_exceptions.md R205, R206). -/
def Obligations.PadReportsItsErrors : Prop :=
  ∀ (src : Src) (bs : Nat) (s : State),
    (bs = 0 → ∃ t, exec (.pad src bs) s = .next t ∧ Failed s t 5) ∧
    (bs ≠ 0 → s.params.bufCap < sourceLen src s →
      ∃ t, exec (.pad src bs) s = .next t ∧ Failed s t 6) ∧
    (bs ≠ 0 → sourceLen src s ≤ s.params.bufCap →
      s.params.bufCap < sourceLen src s + (bs - sourceLen src s % bs) →
      ∃ t, exec (.pad src bs) s = .next t ∧ Failed s t 6)

/-- UNPAD completes with the source less its footer in OUT when the source fits and ends in a padding
footer of `p` bytes; the source's length need not be a multiple of `BS` (41_padding.md R133, R135,
R139). For the source in IN and in OUT. -/
def Obligations.UnpadRemovesTheFooter : Prop :=
  ∀ (src : Src) (bs p : Nat) (s : State), 1 ≤ bs → bs ≤ 255 →
    sourceLen src s ≤ s.params.bufCap → hasPadding (sourceBytes src s) bs p →
    ∃ t, exec (.unpad src bs) s = .next t ∧
      Succeeded s t ((sourceBytes src s).take (sourceLen src s - p)) ∧
      t.outLen.toNat = sourceLen src s - p

/-- UNPAD completes with INVALID_BLOCK_SIZE for block size 0, with CAPACITY when its source is longer
than the buffer, and with INVALID_PADDING when the source has no padding footer, the empty source
among them (41_padding.md R133, R135; 60_exceptions.md R201, R205, R206). -/
def Obligations.UnpadReportsItsErrors : Prop :=
  ∀ (src : Src) (bs : Nat) (s : State), bs ≤ 255 →
    (bs = 0 → ∃ t, exec (.unpad src bs) s = .next t ∧ Failed s t 5) ∧
    (bs ≠ 0 → s.params.bufCap < sourceLen src s →
      ∃ t, exec (.unpad src bs) s = .next t ∧ Failed s t 6) ∧
    (bs ≠ 0 → sourceLen src s ≤ s.params.bufCap → (∀ p, ¬hasPadding (sourceBytes src s) bs p) →
      ∃ t, exec (.unpad src bs) s = .next t ∧ Failed s t 1)

/-- R131: `pad_len` is from 1 to `b`, and equals `b` exactly when the length is a multiple of `b`; an
aligned input gets a whole extra block of bytes equal to `b`; and it fits in one byte. -/
def Obligations.PadLenIsFromOneToTheBlockSize : Prop :=
  ∀ (d : Bytes) (b : Nat), 1 ≤ b → b ≤ 255 →
    1 ≤ padLen d b ∧ padLen d b ≤ b ∧ (padLen d b = b ↔ d.length % b = 0) ∧
    (d.length % b = 0 → padBytes d b = d ++ List.replicate b (BitVec.ofNat 8 b)) ∧
    (BitVec.ofNat 8 (padLen d b)).toNat = padLen d b

/-- R132: the padded length is `len(d) + pad_len = b * (len(d) div b + 1)`, a positive multiple of `b`
and greater than `len(d)`. -/
def Obligations.PaddedLengthIsTheNextMultiple : Prop :=
  ∀ (d : Bytes) (b : Nat), 1 ≤ b → b ≤ 255 →
    (padBytes d b).length = d.length + padLen d b ∧
    (padBytes d b).length = b * (d.length / b + 1) ∧ (padBytes d b).length % b = 0 ∧
    0 < (padBytes d b).length ∧ d.length < (padBytes d b).length

/-- R136: unpadding a padded sequence with the same block size gives the sequence back. -/
def Obligations.UnpadInvertsPad : Prop :=
  ∀ (d : Bytes) (b : Nat), 1 ≤ b → b ≤ 255 → unpadBytes (padBytes d b) b = .ok d

/-- R137: on a non-empty aligned input that unpads, padding the result gives the input back; without
alignment it need not. -/
def Obligations.PadInvertsUnpadOnAlignedInput : Prop :=
  (∀ (d m : Bytes) (b : Nat), 1 ≤ b → b ≤ 255 → d.length % b = 0 → 0 < d.length →
    unpadBytes d b = .ok m → padBytes m b = d) ∧
  (unpadBytes [0x41, 0x41, 0x41, 0x01] 8 = .ok [0x41, 0x41, 0x41] ∧
    (padBytes [0x41, 0x41, 0x41] 8).length = 8)

/-- R138: a padded sequence whose last byte is changed to 0 or to more than `b` does not unpad; nor
does one with any other padding byte changed and the last byte kept. A change of the last byte to
another value from 1 to `b` may pass, as in the rule's example. -/
def Obligations.TamperedPaddingIsDetected : Prop :=
  (∀ (m : Bytes) (b : Nat) (v : Byte), 1 ≤ b → b ≤ 255 → (v.toNat = 0 ∨ b < v.toNat) →
    unpadBytes ((padBytes m b).set ((padBytes m b).length - 1) v) b = .err .invalidPadding) ∧
  (∀ (m : Bytes) (b j : Nat) (v : Byte), 1 ≤ b → b ≤ 255 → m.length ≤ j →
    j < (padBytes m b).length - 1 → v.toNat ≠ padLen m b →
    unpadBytes ((padBytes m b).set j v) b = .err .invalidPadding) ∧
  (∀ m : Bytes, m.length = 27 →
    unpadBytes ((padBytes m 8).set 31 0x01) 8 = .ok (m ++ [0x05, 0x05, 0x05, 0x05]))

/-! ## ENCRYPT and DECRYPT -/

/-- ENCRYPT completes with the source transformed block by block in OUT when the source fits, its
length is a multiple of `NB` and the key is valid: block `i` of the result is `E(k, blk_i)`, in source
order (42_ecb.md R150, R151, R153). For the source in IN and in OUT. -/
def Obligations.EncryptTransformsEachBlock : Prop :=
  ∀ (src : Src) (s : State), s.params.wf → sourceLen src s ≤ s.params.bufCap →
    sourceLen src s % s.params.nb = 0 → keyOk s →
    ∃ t c, exec (.encrypt src) s = .next t ∧ Succeeded s t c ∧ c.length = sourceLen src s ∧
      ∀ i, i < sourceLen src s / s.params.nb →
        blockAt s.params.nb c i =
          encryptBlock s.params (keyBytes s) (blockAt s.params.nb (sourceBytes src s) i)

/-- DECRYPT completes likewise, with `D(k, blk_i)` (42_ecb.md R150, R152, R154). -/
def Obligations.DecryptTransformsEachBlock : Prop :=
  ∀ (src : Src) (s : State), s.params.wf → sourceLen src s ≤ s.params.bufCap →
    sourceLen src s % s.params.nb = 0 → keyOk s →
    ∃ t c, exec (.decrypt src) s = .next t ∧ Succeeded s t c ∧ c.length = sourceLen src s ∧
      ∀ i, i < sourceLen src s / s.params.nb →
        blockAt s.params.nb c i =
          decryptBlock s.params (keyBytes s) (blockAt s.params.nb (sourceBytes src s) i)

/-- ENCRYPT and DECRYPT complete with CAPACITY when the source is longer than the buffer, else with
INVALID_LENGTH when its length is no multiple of `NB`, else with INVALID_KEY when the key is not valid
(42_ecb.md R151 to R154; 60_exceptions.md R202, R203, R206). -/
def Obligations.EncryptAndDecryptReportTheirErrors : Prop :=
  ∀ (src : Src) (s : State) (i : Instr), (i = .encrypt src ∨ i = .decrypt src) →
    (s.params.bufCap < sourceLen src s → ∃ t, exec i s = .next t ∧ Failed s t 6) ∧
    (sourceLen src s ≤ s.params.bufCap → sourceLen src s % s.params.nb ≠ 0 →
      ∃ t, exec i s = .next t ∧ Failed s t 2) ∧
    (sourceLen src s ≤ s.params.bufCap → sourceLen src s % s.params.nb = 0 → ¬keyOk s →
      ∃ t, exec i s = .next t ∧ Failed s t 3)

/-- With an empty source ENCRYPT and DECRYPT still check the key: INVALID_KEY if it is not valid, and the
empty result if it is (42_ecb.md R160). -/
def Obligations.EmptySourceStillChecksTheKey : Prop :=
  ∀ (src : Src) (s : State) (i : Instr), (i = .encrypt src ∨ i = .decrypt src) → sourceLen src s = 0 →
    (¬keyOk s → ∃ t, exec i s = .next t ∧ Failed s t 3) ∧
    (keyOk s → ∃ t, exec i s = .next t ∧ Succeeded s t [])

/-- R159: a successful ENCRYPT or DECRYPT leaves OUT_LEN at the length of its source, a multiple of `NB`
and at most `BUF_CAP`. -/
def Obligations.EncryptAndDecryptKeepTheLength : Prop :=
  ∀ (src : Src) (s t : State) (i : Instr), (i = .encrypt src ∨ i = .decrypt src) → s.params.wf →
    exec i s = .next t → t.errcode = 0 →
    t.outLen.toNat = sourceLen src s ∧ t.outLen.toNat % s.params.nb = 0 ∧
      t.outLen.toNat ≤ s.params.bufCap

/-- R155: under one valid key, byte-equal source blocks give byte-equal result blocks, wherever they
stand and whatever stands around them, for ENCRYPT's function and for DECRYPT's. -/
def Obligations.EqualBlocksGiveEqualBlocks : Prop :=
  ∀ (p : Params) (n : Nat) (k d d' c c' : Bytes) (i i' : Nat), p.wf →
    i < d.length / p.nb → i' < d'.length / p.nb → blockAt p.nb d i = blockAt p.nb d' i' →
    ((ecbEnc p n k d = .ok c → ecbEnc p n k d' = .ok c' → blockAt p.nb c i = blockAt p.nb c' i') ∧
     (ecbDec p n k d = .ok c → ecbDec p n k d' = .ok c' → blockAt p.nb c i = blockAt p.nb c' i'))

/-- R157: under a valid key, decrypting the encryption of an aligned sequence gives it back, and
encrypting its decryption too. -/
def Obligations.EcbRoundTrips : Prop :=
  ∀ (p : Params) (n : Nat) (k d : Bytes), p.wf → d.length % p.nb = 0 → keyValid p n k = true →
    (∃ c, ecbEnc p n k d = .ok c ∧ ecbDec p n k c = .ok d) ∧
    (∃ c, ecbDec p n k d = .ok c ∧ ecbEnc p n k c = .ok d)

/-- The function form of the source's full round trip: pad, encrypt, decrypt, unpad gives the message
back, for every block size that is a multiple of `NB` (42_ecb.md R158). -/
def Obligations.PadEncryptDecryptUnpadIsTheMessage : Prop :=
  ∀ (p : Params) (n b : Nat) (k d : Bytes), p.wf → 1 ≤ b → b ≤ 255 → b % p.nb = 0 →
    keyValid p n k = true →
    ∃ c q, ecbEnc p n k (padBytes d b) = .ok c ∧ ecbDec p n k c = .ok q ∧ unpadBytes q b = .ok d

/-- The command form: with the message written in IN and a valid key written in KEY, `PAD b`,
`ENCRYPT OUT`, `DECRYPT OUT`, `UNPAD b, OUT`, each accepted and completed in turn, all complete with
ERRCODE 0, and OUT ends with the message (42_ecb.md R158; the schedule is the model's, log entry 2). -/
def Obligations.CommandChainReturnsTheMessage : Prop :=
  ∀ (s : State) (b : Nat) (d k : Bytes) (es : List Event), Invariant s → s.busy = false →
    1 ≤ b → b ≤ 255 → b % s.params.nb = 0 →
    s.inLen.toNat = d.length → holds s inBase d →
    s.keyLen.toNat = s.params.nk → k.length = s.params.nk → holds s keyBase k →
    keyFormatOk s.params k = true →
    d.length + padLen d b ≤ s.params.bufCap →
    s.agenda = [issue (.pad b none), .engine, issue (.encrypt (some .outBuf)), .engine,
      issue (.decrypt (some .outBuf)), .engine, issue (.unpad b (some .outBuf)), .engine] ++ es →
    (∀ n ∈ [2, 4, 6, 8], ∃ t, Host.Core.run core n s = .next t ∧ t.errcode = 0 ∧ t.done = true) ∧
    ∃ t, Host.Core.run core 8 s = .next t ∧ t.outLen.toNat = d.length ∧ holds t outBase d ∧
      t.agenda = es

/-! ## The host port

That a step is a certain host access, or the reset, is said as: it stands first in the schedule
(`agenda`, log entry 2). Every statement holds for whatever is scheduled after it. -/

/-- The reads that get an OK response, by number: a word at a register offset, and a byte or an aligned
word inside a store's window (20_memory.md R62 to R66). -/
def Obligations.LegalReadsAreThoseOfTheMap : Prop :=
  ∀ (s : State) (addr : Word) (size : Size) (es : List Event), s.agenda = .read addr size :: es →
    ∃ t r w, step s = .next t ∧ t.resp = some (.read r w) ∧
      (r = .ok ↔
        (size = .four ∧ addr.toNat ∈ [0x000, 0x004, 0x008, 0x010, 0x014, 0x018, 0x01C, 0x020, 0x024]) ∨
        ((size = .one ∨ (size = .four ∧ addr.toNat % 4 = 0)) ∧
          ((0x100 ≤ addr.toNat ∧ addr.toNat + size.bytes ≤ 0x100 + s.params.keyCap) ∨
           (0x01000000 ≤ addr.toNat ∧ addr.toNat + size.bytes ≤ 0x01000000 + s.params.bufCap) ∨
           (0x02000000 ≤ addr.toNat ∧ addr.toNat + size.bytes ≤ 0x02000000 + s.params.bufCap))))

/-- The writes that get an OK response, by number: a word at one of the five writable register offsets,
and a byte or an aligned word wholly inside the KEY or IN window. Every other write (to an unmapped
offset, of a byte at a register, misaligned or out of range in a store, to a read-only target) gets an
ERROR response and changes nothing, whatever BUSY is (20_memory.md R62 to R67, R70, R73). -/
def Obligations.LegalWritesAreThoseOfTheMap : Prop :=
  ∀ (s : State) (addr wdata : Word) (size : Size) (es : List Event),
    s.agenda = .write addr size wdata :: es →
    ∃ t r, step s = .next t ∧ t.resp = some (.write r) ∧
      (r = .ok ↔
        (size = .four ∧ addr.toNat ∈ [0x010, 0x014, 0x018, 0x01C, 0x024]) ∨
        ((size = .one ∨ (size = .four ∧ addr.toNat % 4 = 0)) ∧
          ((0x100 ≤ addr.toNat ∧ addr.toNat + size.bytes ≤ 0x100 + s.params.keyCap) ∨
           (0x01000000 ≤ addr.toNat ∧ addr.toNat + size.bytes ≤ 0x01000000 + s.params.bufCap)))) ∧
      (r = .error → t = { s with agenda := es, resp := some (.write .error) })

/-- R63: an access of 2 or 3 bytes gets an ERROR response wherever it is addressed. -/
def Obligations.OtherSizesGetError : Prop :=
  ∀ (s : State) (addr wdata : Word) (size : Size) (es : List Event), (size = .two ∨ size = .three) →
    (s.agenda = .read addr size :: es →
      step s = .next { s with agenda := es, resp := some (.read .error 0) }) ∧
    (s.agenda = .write addr size wdata :: es →
      step s = .next { s with agenda := es, resp := some (.write .error) })

/-- R67: an access that gets an ERROR response changes no state, OVR included, and such a read returns
0. -/
def Obligations.ErrorResponseChangesNothing : Prop :=
  ∀ (s t : State) (addr wdata : Word) (size : Size) (es : List Event), step s = .next t →
    (s.agenda = .read addr size :: es → ∀ w, t.resp = some (.read .error w) →
      w = 0 ∧ t = { s with agenda := es, resp := some (.read .error 0) }) ∧
    (s.agenda = .write addr size wdata :: es → t.resp = some (.write .error) →
      t = { s with agenda := es, resp := some (.write .error) })

/-- A write to ID, CFG, BUFCAP, OUT_LEN or a byte of the OUT buffer gets an ERROR response and changes
nothing, whatever BUSY is (20_memory.md R70). -/
def Obligations.ReadOnlyTargetsRefuseWrites : Prop :=
  ∀ (s : State) (addr wdata : Word) (size : Size) (es : List Event), s.params.wf →
    (addr.toNat ∈ [0x000, 0x004, 0x008, 0x020] ∨
      (0x02000000 ≤ addr.toNat ∧ addr.toNat < 0x02000000 + s.params.bufCap)) →
    s.agenda = .write addr size wdata :: es →
    step s = .next { s with agenda := es, resp := some (.write .error) }

/-- A legal write to a frozen target while a command is in flight changes nothing but OVR, and gets an
OK response (20_memory.md R72, 60_exceptions.md R208). -/
def Obligations.FrozenWriteWhileBusyIsDropped : Prop :=
  ∀ (s : State) (addr wdata : Word) (size : Size) (es : List Event), s.params.wf → s.busy = true →
    ((size = .four ∧ addr.toNat ∈ [0x014, 0x01C, 0x024]) ∨
      ((size = .one ∨ (size = .four ∧ addr.toNat % 4 = 0)) ∧
        ((0x100 ≤ addr.toNat ∧ addr.toNat + size.bytes ≤ 0x100 + s.params.keyCap) ∨
         (0x01000000 ≤ addr.toNat ∧ addr.toNat + size.bytes ≤ 0x01000000 + s.params.bufCap)))) →
    s.agenda = .write addr size wdata :: es →
    step s = .next { s with ovr := true, agenda := es, resp := some (.write .ok) }

/-- While idle, a word write to IN_LEN or KEY_LEN stores the word as written, any value, and changes
nothing else; a read then returns it (10_state.md R35, R37; 20_memory.md R72). -/
def Obligations.LengthRegistersStoreAnyWord : Prop :=
  ∀ (s : State) (wdata : Word) (es : List Event), s.busy = false →
    (s.agenda = .write 0x01C .four wdata :: .read 0x01C .four :: es →
      ∃ t u, step s = .next t ∧
        t = { s with inLen := wdata, agenda := .read 0x01C .four :: es, resp := some (.write .ok) } ∧
        step t = .next u ∧ u.resp = some (.read .ok wdata)) ∧
    (s.agenda = .write 0x024 .four wdata :: .read 0x024 .four :: es →
      ∃ t u, step s = .next t ∧
        t = { s with keyLen := wdata, agenda := .read 0x024 .four :: es, resp := some (.write .ok) } ∧
        step t = .next u ∧ u.resp = some (.read .ok wdata))

/-- While idle, a legal write to the KEY store or the IN buffer stores the low bytes of the data, least
significant first, at the addressed bytes, and every other byte and register is as before
(20_memory.md R68, R69, R72). -/
def Obligations.StoreWritesAreLittleEndian : Prop :=
  ∀ (s : State) (addr wdata : Word) (size : Size) (es : List Event), s.params.wf → s.busy = false →
    (size = .one ∨ (size = .four ∧ addr.toNat % 4 = 0)) →
    ((0x100 ≤ addr.toNat ∧ addr.toNat + size.bytes ≤ 0x100 + s.params.keyCap) ∨
      (0x01000000 ≤ addr.toNat ∧ addr.toNat + size.bytes ≤ 0x01000000 + s.params.bufCap)) →
    s.agenda = .write addr size wdata :: es →
    ∃ t, step s = .next t ∧ t = { s with mem := t.mem, agenda := es, resp := some (.write .ok) } ∧
      (∀ j, j < size.bytes →
        Memory.read t.mem (addr.toNat + j) = some (BitVec.ofNat 8 (wdata.toNat / 256 ^ j))) ∧
      (∀ x, (x < addr.toNat ∨ addr.toNat + size.bytes ≤ x) →
        Memory.read t.mem x = Memory.read s.mem x)

/-- After a word write to the IN buffer while idle, a word read returns the word, and the four byte reads
return its bytes, least significant first, zero above (20_memory.md R68, R69). -/
def Obligations.WordWriteThenReadsOfIn : Prop :=
  ∀ (s t : State) (addr wdata : Word) (es : List Event), s.params.wf → s.busy = false →
    addr.toNat % 4 = 0 → 0x01000000 ≤ addr.toNat →
    addr.toNat + 4 ≤ 0x01000000 + s.params.bufCap →
    s.agenda = .write addr .four wdata :: es → step s = .next t →
    (∃ u, step { t with agenda := [.read addr .four] } = .next u ∧
      u.resp = some (.read .ok wdata)) ∧
    ∀ j, j < 4 →
      ∃ u, step { t with agenda := [.read (addr + BitVec.ofNat 32 j) .one] } = .next u ∧
        u.resp = some (.read .ok (BitVec.ofNat 32 (wdata.toNat / 256 ^ j % 256)))

/-- A legal read of the IN or OUT buffer returns the written bytes it addresses in little-endian order,
zero above; an unwritten one among them is read as some byte (20_memory.md R68, R69, R76). -/
def Obligations.BufferReadsAreLittleEndian : Prop :=
  ∀ (s : State) (addr : Word) (size : Size) (es : List Event), s.params.wf →
    (size = .one ∨ (size = .four ∧ addr.toNat % 4 = 0)) →
    ((0x01000000 ≤ addr.toNat ∧ addr.toNat + size.bytes ≤ 0x01000000 + s.params.bufCap) ∨
      (0x02000000 ≤ addr.toNat ∧ addr.toNat + size.bytes ≤ 0x02000000 + s.params.bufCap)) →
    s.agenda = .read addr size :: es →
    ∃ t w, step s = .next t ∧ t.resp = some (.read .ok w) ∧ w.toNat < 256 ^ size.bytes ∧
      ∀ j v, j < size.bytes → Memory.read s.mem (addr.toNat + j) = some v →
        w.toNat / 256 ^ j % 256 = v.toNat

/-- A word read of CMD returns the last accepted command word, all 32 bits, one of OUT_LEN the length of
the last successful result, and one of IN_LEN or KEY_LEN the stored value, whatever BUSY is (10_state.md
R28, R35, R36, R37). -/
def Obligations.CmdAndLengthRegistersReadBack : Prop :=
  ∀ (s : State) (es : List Event),
    (s.agenda = .read 0x014 .four :: es →
      ∃ t, step s = .next t ∧ t.resp = some (.read .ok s.cmd)) ∧
    (s.agenda = .read 0x020 .four :: es →
      ∃ t, step s = .next t ∧ t.resp = some (.read .ok s.outLen)) ∧
    (s.agenda = .read 0x01C .four :: es →
      ∃ t, step s = .next t ∧ t.resp = some (.read .ok s.inLen)) ∧
    (s.agenda = .read 0x024 .four :: es →
      ∃ t, step s = .next t ∧ t.resp = some (.read .ok s.keyLen))

/-- While idle, the host's LOADIN of a message that fits puts its bytes in IN and its length in IN_LEN, and
LOADKEY the key in KEY and KEY_LEN; every other byte and register is as before (30_encoding.md R101,
20_memory.md R68, R69, R72). -/
def Obligations.LoadInAndLoadKeyStoreTheirBytes : Prop :=
  ∀ (s : State) (d : Bytes) (es : List Event), s.params.wf → s.busy = false →
    (d.length ≤ s.params.bufCap → s.agenda = loadIn d ++ es →
      ∃ t, Host.Core.run core (loadIn d).length s = .next t ∧
        t = { s with inLen := BitVec.ofNat 32 d.length, mem := t.mem, agenda := es,
                     resp := some (.write .ok) } ∧
        holds t inBase d ∧
        ∀ x, (x < inBase ∨ inBase + d.length ≤ x) → Memory.read t.mem x = Memory.read s.mem x) ∧
    (d.length ≤ s.params.keyCap → s.agenda = loadKey d ++ es →
      ∃ t, Host.Core.run core (loadKey d).length s = .next t ∧
        t = { s with keyLen := BitVec.ofNat 32 d.length, mem := t.mem, agenda := es,
                     resp := some (.write .ok) } ∧
        holds t keyBase d ∧
        ∀ x, (x < keyBase ∨ keyBase + d.length ≤ x) → Memory.read t.mem x = Memory.read s.mem x)

/-- R71: a legal read of the KEY store returns 0 with OK and has no side effect. -/
def Obligations.KeyStoreReadsAsZero : Prop :=
  ∀ (s : State) (addr : Word) (size : Size) (es : List Event), s.params.wf →
    (size = .one ∨ (size = .four ∧ addr.toNat % 4 = 0)) →
    0x100 ≤ addr.toNat → addr.toNat + size.bytes ≤ 0x100 + s.params.keyCap →
    s.agenda = .read addr size :: es →
    ∃ t, step s = .next t ∧
      t = { s with agenda := es, resp := some (.read .ok 0), draws := t.draws }

/-- A host read changes nothing but its response and the model's count of draws (20_memory.md R75). -/
def Obligations.ReadsHaveNoSideEffect : Prop :=
  ∀ (s : State) (addr : Word) (size : Size) (es : List Event), s.agenda = .read addr size :: es →
    ∃ t, step s = .next t ∧ t = { s with agenda := es, resp := t.resp, draws := t.draws }

/-- R24, R25, R26: ID reads its constant, CFG the block size, key length and key capacity in its fields
with the top byte 0, BUFCAP the buffer capacity; a word write to each gets an ERROR and changes
nothing. -/
def Obligations.ConstantRegistersReadTheConfiguration : Prop :=
  ∀ (s : State) (wdata : Word) (es : List Event), s.params.wf →
    (s.agenda = .read 0x000 .four :: es →
      ∃ t, step s = .next t ∧ t.resp = some (.read .ok 0x50414431)) ∧
    (s.agenda = .read 0x004 .four :: es →
      ∃ t w, step s = .next t ∧ t.resp = some (.read .ok w) ∧
        w.toNat = s.params.nb + 256 * s.params.nk + 65536 * s.params.keyCap) ∧
    (s.agenda = .read 0x008 .four :: es →
      ∃ t w, step s = .next t ∧ t.resp = some (.read .ok w) ∧ w.toNat = s.params.bufCap) ∧
    ((s.agenda = .write 0x000 .four wdata :: es ∨ s.agenda = .write 0x004 .four wdata :: es ∨
        s.agenda = .write 0x008 .four wdata :: es) →
      step s = .next { s with agenda := es, resp := some (.write .error) })

/-- A word write to CTRL sets IE from bit 0, ignores the other bits and changes nothing else, whatever
BUSY is; a read returns IE in bit 0 and zeros (10_state.md R27, R43). -/
def Obligations.CtrlHoldsOnlyTheInterruptEnable : Prop :=
  ∀ (s : State) (wdata : Word) (es : List Event),
    (s.agenda = .write 0x010 .four wdata :: es →
      step s = .next { s with ie := decide (wdata.toNat % 2 = 1), agenda := es,
                              resp := some (.write .ok) }) ∧
    (s.agenda = .read 0x010 .four :: es →
      ∃ t, step s = .next t ∧ t.resp = some (.read .ok (if s.ie then 1 else 0)))

/-- R34, R31: a word write to STATUS clears DONE where bit 1 is 1 and OVR where bit 3 is 1, ignores
every other bit and changes nothing else, whatever BUSY is; a read returns BUSY, DONE, ERR (which is
`ERRCODE != 0`), OVR and ERRCODE in bits 0, 1, 2, 3 and 11:8, zeros elsewhere, with no side effect. -/
def Obligations.StatusReadsTheFlagsAndClearsByOnes : Prop :=
  ∀ (s : State) (wdata : Word) (es : List Event),
    (s.agenda = .write 0x018 .four wdata :: es →
      step s = .next { s with done := if wdata.toNat / 2 % 2 = 1 then false else s.done,
                              ovr := if wdata.toNat / 8 % 2 = 1 then false else s.ovr,
                              agenda := es, resp := some (.write .ok) }) ∧
    (s.agenda = .read 0x018 .four :: es →
      ∃ t w, step s = .next t ∧
        t = { s with agenda := es, resp := some (.read .ok w), draws := t.draws } ∧
        w.toNat = (if s.busy then 1 else 0) + (if s.done then 2 else 0) +
          (if s.errcode ≠ 0 then 4 else 0) + (if s.ovr then 8 else 0) + 256 * s.errcode.toNat)

/-! ## The whole machine -/

/-- The reset input sets every register to its reset value and every store byte to unwritten, in one
step, and aborts any command in flight; the constants are unaffected (70_reset_and_hazards.md R240,
R241). The step keeps the schedule (the model's, log entry 2). -/
def Obligations.ResetStepSetsEveryRegister : Prop :=
  ∀ (s : State) (es : List Event), s.agenda = .reset :: es →
    ∃ t, step s = .next t ∧ t.ie = false ∧ t.cmd = 0 ∧ t.busy = false ∧ t.done = false ∧
      t.ovr = false ∧ t.errcode = 0 ∧ t.inLen = 0 ∧ t.outLen = 0 ∧ t.keyLen = 0 ∧
      (∀ x, Memory.read t.mem x = none) ∧ t.params = s.params ∧ t.agenda = es

/-- The state after reset holds the reset values of 70_reset_and_hazards.md R240 to R242: every register
0, every store byte unwritten, `irq` 0. (Its parameters are the model's choice, log entry 1, and this
says nothing of them.) -/
def Obligations.ResetStateHoldsTheResetValues : Prop :=
  State.reset.ie = false ∧ State.reset.cmd = 0 ∧ State.reset.busy = false ∧ State.reset.done = false ∧
  State.reset.ovr = false ∧ State.reset.errcode = 0 ∧ State.reset.inLen = 0 ∧ State.reset.outLen = 0 ∧
  State.reset.keyLen = 0 ∧ (∀ x, Memory.read State.reset.mem x = none) ∧ irq State.reset = false

/-- The invariant holds right after reset, for all parameters in their ranges (10_state.md R20, R46). -/
def Obligations.InvariantHoldsAfterReset : Prop :=
  Invariant State.reset ∧ ∀ p : Params, p.wf → Invariant (State.resetWith p)

/-- Every step keeps the invariant, from every state that satisfies it: the stores in canonical form and
inside their windows, `OUT_LEN <= BUF_CAP`, DONE and BUSY never together, ERRCODE at most 6, and 0
while BUSY (10_state.md R30, R33, R46). -/
def Obligations.StepKeepsTheInvariant : Prop :=
  ∀ s t : State, Invariant s → step s = .next t → Invariant t

/-- `OUT_LEN <= BUF_CAP` in every state reached from reset, whatever the parameters and whatever the
outside world schedules (10_state.md R46; the schedule is the model's, log entry 2). -/
def Obligations.OutLenNeverExceedsCapacity : Prop :=
  ∀ (p : Params) (l : List Event) (n : Nat) (t : State), p.wf →
    Host.Core.run core n { State.resetWith p with agenda := l } = .next t →
    t.outLen.toNat ≤ p.bufCap

/-- Every step answers a next state, with the same parameters. That nothing stops PADECB is the model's
deduction (log entry 13) from what 30_encoding.md R96 and R97 and 60_exceptions.md R207 and R223 say of
each event; that the parameters stand in the state is the model's choice (log entry 1), and that they
stay is 00_scope.md R5 to R9. -/
def Obligations.StepAlwaysAnswersWithTheSameParameters : Prop :=
  ∀ s : State, ∃ t, step s = .next t ∧ t.params = s.params

/-- While idle, a turn of the engine changes no state (60_exceptions.md R223; the schedule is the
model's, log entry 2). -/
def Obligations.IdleEngineChangesNothing : Prop :=
  ∀ (s : State) (es : List Event), engineTurn s es → s.busy = false →
    step s = .next { s with agenda := es }

/-- A command in flight completes, or is aborted by reset, within as many steps as are scheduled and
one more (40_command_lifecycle.md R111, R118; the bound is the model's, log entry 2). -/
def Obligations.CommandInFlightEndsWithinTheSchedule : Prop :=
  ∀ s : State, s.busy = true →
    ∃ n t, n ≤ s.agenda.length + 1 ∧ Host.Core.run core n s = .next t ∧ t.busy = false

/-- Only a completion sets DONE: a step after which DONE is 1 and before which it was 0 is the engine's
turn with a command in flight (10_state.md R30, 60_exceptions.md R214). -/
def Obligations.OnlyCompletionSetsDone : Prop :=
  ∀ s t : State, step s = .next t → s.done = false → t.done = true →
    s.busy = true ∧ t.busy = false ∧ ∃ es, engineTurn s es

/-- `irq` rises only at a completion with IE set, or at a write to CTRL that sets IE while DONE is 1
(60_exceptions.md R214 to R216). -/
def Obligations.IrqRisesOnlyByCompletionOrEnable : Prop :=
  ∀ s t : State, step s = .next t → irq s = false → irq t = true →
    (s.busy = true ∧ s.ie = true ∧ ∃ es, engineTurn s es) ∨
    (s.done = true ∧ ∃ wdata es, s.agenda = .write 0x010 .four wdata :: es ∧ wdata.toNat % 2 = 1)

/-- The operands of a command in flight are frozen: whatever step is taken short of its end, CMD,
IN_LEN, OUT_LEN, KEY_LEN and every store byte are as before (20_memory.md R72, R80). -/
def Obligations.OperandsAreFrozenWhileBusy : Prop :=
  ∀ s t : State, s.busy = true → step s = .next t → t.busy = true →
    t.cmd = s.cmd ∧ t.inLen = s.inLen ∧ t.outLen = s.outLen ∧ t.keyLen = s.keyLen ∧
      ∀ x, Memory.read t.mem x = Memory.read s.mem x

/-- OUT and OUT_LEN change only at a completion or a reset (10_state.md R36, R40; 20_memory.md R70). -/
def Obligations.OnlyCompletionAndResetChangeOut : Prop :=
  ∀ s t : State, s.params.wf → step s = .next t →
    (t.outLen ≠ s.outLen ∨
      ∃ x, outBase ≤ x ∧ x < outBase + s.params.bufCap ∧ Memory.read t.mem x ≠ Memory.read s.mem x) →
    (s.busy = true ∧ ∃ es, engineTurn s es) ∨ ∃ es, s.agenda = .reset :: es

/-- KEY, IN, IN_LEN and KEY_LEN change only at a host write with no command in flight, or at a reset: no
command writes them (10_state.md R35, R37 to R39). -/
def Obligations.OnlyIdleWritesAndResetChangeKeyAndIn : Prop :=
  ∀ s t : State, s.params.wf → step s = .next t →
    (t.inLen ≠ s.inLen ∨ t.keyLen ≠ s.keyLen ∨
      ∃ x, ((keyBase ≤ x ∧ x < keyBase + s.params.keyCap) ∨
            (inBase ≤ x ∧ x < inBase + s.params.bufCap)) ∧
        Memory.read t.mem x ≠ Memory.read s.mem x) →
    (s.busy = false ∧ ∃ addr size wdata es, s.agenda = .write addr size wdata :: es) ∨
      ∃ es, s.agenda = .reset :: es
end

