-- ==== Sys2Proof/Laws/Memory.lean ====
section
/-! SUPPORT. Reading and writing the stores: read after write, and the canonical form. -/

namespace Sys2Proof.Machine

@[simp] theorem Memory.read_nil (x : Nat) : Memory.read [] x = none := rfl

/-- A read after a one-byte write gives the byte written, and every other byte as before. -/
theorem Memory.read_write (m : Memory) (x : Nat) (v : Byte) (y : Nat) :
    Memory.read (Memory.write m x v) y = if y = x then some v else Memory.read m y := by
  induction m with
  | nil => simp [Memory.write, Memory.read]
  | cons c m ih =>
    obtain ⟨a, u⟩ := c
    by_cases hlt : x < a
    · simp [Memory.write, Memory.read, hlt]
    · by_cases heq : x = a
      · subst heq
        by_cases hy : y = x <;> simp [Memory.write, Memory.read, hy]
      · by_cases hya : y = a
        · subst hya
          have hne : y ≠ x := fun h => heq h.symm
          simp [Memory.write, Memory.read, hlt, heq, hne]
        · simp [Memory.write, Memory.read, hlt, heq, hya, ih]

/-- A read after writing a byte sequence: inside it the sequence's byte, outside as before. -/
theorem Memory.read_writeBytes (d : Bytes) (m : Memory) (x y : Nat) :
    Memory.read (Memory.writeBytes m x d) y =
      if x ≤ y ∧ y < x + d.length then d[y - x]? else Memory.read m y := by
  induction d generalizing m x with
  | nil =>
    have h : ¬(x ≤ y ∧ y < x + ([] : Bytes).length) := by simp
    rw [if_neg h]; rfl
  | cons v vs ih =>
    rw [Memory.writeBytes, ih, Memory.read_write]
    by_cases hx : y = x
    · subst hx
      simp
    · by_cases hin : x + 1 ≤ y ∧ y < x + 1 + vs.length
      · have h2 : x ≤ y ∧ y < x + (v :: vs).length := by simp; omega
        obtain ⟨k, hk⟩ : ∃ k, y - x = k + 1 := ⟨y - x - 1, by omega⟩
        have hk' : y - (x + 1) = k := by omega
        rw [if_pos hin, if_pos h2, hk, hk', List.getElem?_cons_succ]
      · have h2 : ¬(x ≤ y ∧ y < x + (v :: vs).length) := by simp; omega
        rw [if_neg hin, if_neg h2, if_neg hx]

/-- A read inside a byte sequence just written. -/
theorem Memory.read_writeBytes_inside {d : Bytes} {j : Nat} (h : j < d.length) (m : Memory) (x : Nat) :
    Memory.read (Memory.writeBytes m x d) (x + j) = d[j]? := by
  have hin : x ≤ x + j ∧ x + j < x + d.length := by omega
  rw [Memory.read_writeBytes, if_pos hin, Nat.add_sub_cancel_left]

/-- A read outside a byte sequence just written. -/
theorem Memory.read_writeBytes_outside {d : Bytes} {x y : Nat} (h : y < x ∨ x + d.length ≤ y)
    (m : Memory) : Memory.read (Memory.writeBytes m x d) y = Memory.read m y := by
  have hout : ¬(x ≤ y ∧ y < x + d.length) := by omega
  rw [Memory.read_writeBytes, if_neg hout]

/-- A write adds no offset but its own. -/
theorem Memory.mem_write {m : Memory} {x : Nat} {v : Byte} {c : Host.Cell}
    (h : c ∈ Memory.write m x v) : c ∈ m ∨ c.1 = x := by
  induction m with
  | nil =>
    simp only [Memory.write, List.mem_singleton] at h
    exact .inr (by rw [h])
  | cons e m ih =>
    obtain ⟨a, u⟩ := e
    simp only [Memory.write] at h
    split at h
    · rcases List.mem_cons.1 h with h | h
      · exact .inr (by rw [h])
      · exact .inl h
    · split at h
      · rcases List.mem_cons.1 h with h | h
        · exact .inr (by rw [h])
        · exact .inl (List.mem_cons_of_mem _ h)
      · rcases List.mem_cons.1 h with h | h
        · exact .inl (h ▸ List.mem_cons_self)
        · exact (ih h).imp (List.mem_cons_of_mem _) id

/-- A write keeps the canonical form. -/
theorem Memory.write_wf {m : Memory} (h : Memory.wf m) (x : Nat) (v : Byte) :
    Memory.wf (Memory.write m x v) := by
  induction m with
  | nil => simp [Memory.write, Memory.wf]
  | cons e m ih =>
    obtain ⟨a, u⟩ := e
    obtain ⟨hhead, htail⟩ := List.pairwise_cons.1 h
    simp only [Memory.write]
    split
    · rename_i hlt
      refine List.pairwise_cons.2 ⟨fun c hc => ?_, h⟩
      rcases List.mem_cons.1 hc with rfl | hc
      · exact hlt
      · exact Nat.lt_trans hlt (hhead c hc)
    · split
      · rename_i heq
        subst heq
        exact List.pairwise_cons.2 ⟨hhead, htail⟩
      · rename_i hlt hne
        refine List.pairwise_cons.2 ⟨fun c hc => ?_, ih htail⟩
        rcases Memory.mem_write hc with hc | hc
        · exact hhead c hc
        · show a < c.1
          omega

/-- Writing a byte sequence keeps the canonical form. -/
theorem Memory.writeBytes_wf (d : Bytes) {m : Memory} (h : Memory.wf m) (x : Nat) :
    Memory.wf (Memory.writeBytes m x d) := by
  induction d generalizing m x with
  | nil => exact h
  | cons v vs ih => exact ih (Memory.write_wf h x v) (x + 1)

/-- Writing a byte sequence adds no offset but the sequence's own. -/
theorem Memory.mem_writeBytes (d : Bytes) {m : Memory} {x : Nat} {c : Host.Cell}
    (h : c ∈ Memory.writeBytes m x d) : c ∈ m ∨ (x ≤ c.1 ∧ c.1 < x + d.length) := by
  induction d generalizing m x with
  | nil => exact .inl h
  | cons v vs ih =>
    rcases ih h with h | h
    · rcases Memory.mem_write h with h | h
      · exact .inl h
      · exact .inr (by simp; omega)
    · exact .inr (by simp; omega)

/-- The memory after reset is in canonical form. -/
theorem resetWith_mem_wf (p : Params) : Memory.wf (State.resetWith p).mem := List.Pairwise.nil

theorem reset_mem_wf : Memory.wf State.reset.mem := resetWith_mem_wf Config.t1

end Sys2Proof.Machine
end

