-- ==== Sys2Proof/Laws/State.lean ====
section
/-! SUPPORT. What each named state update leaves in each field: one lemma per field per update. -/

namespace Sys2Proof.Machine

@[simp] theorem accept_params (w : Word) (s : State) : (accept w s).params = s.params := rfl
@[simp] theorem accept_ie (w : Word) (s : State) : (accept w s).ie = s.ie := rfl
@[simp] theorem accept_cmd (w : Word) (s : State) : (accept w s).cmd = w := rfl
@[simp] theorem accept_busy (w : Word) (s : State) : (accept w s).busy = true := rfl
@[simp] theorem accept_done (w : Word) (s : State) : (accept w s).done = false := rfl
@[simp] theorem accept_ovr (w : Word) (s : State) : (accept w s).ovr = s.ovr := rfl
@[simp] theorem accept_errcode (w : Word) (s : State) : (accept w s).errcode = 0 := rfl
@[simp] theorem accept_inLen (w : Word) (s : State) : (accept w s).inLen = s.inLen := rfl
@[simp] theorem accept_outLen (w : Word) (s : State) : (accept w s).outLen = s.outLen := rfl
@[simp] theorem accept_keyLen (w : Word) (s : State) : (accept w s).keyLen = s.keyLen := rfl
@[simp] theorem accept_mem (w : Word) (s : State) : (accept w s).mem = s.mem := rfl
@[simp] theorem accept_agenda (w : Word) (s : State) : (accept w s).agenda = s.agenda := rfl
@[simp] theorem accept_resp (w : Word) (s : State) : (accept w s).resp = s.resp := rfl
@[simp] theorem accept_draws (w : Word) (s : State) : (accept w s).draws = s.draws := rfl

@[simp] theorem commitOk_params (d : Bytes) (s : State) : (commitOk d s).params = s.params := rfl
@[simp] theorem commitOk_ie (d : Bytes) (s : State) : (commitOk d s).ie = s.ie := rfl
@[simp] theorem commitOk_cmd (d : Bytes) (s : State) : (commitOk d s).cmd = s.cmd := rfl
@[simp] theorem commitOk_busy (d : Bytes) (s : State) : (commitOk d s).busy = s.busy := rfl
@[simp] theorem commitOk_done (d : Bytes) (s : State) : (commitOk d s).done = s.done := rfl
@[simp] theorem commitOk_ovr (d : Bytes) (s : State) : (commitOk d s).ovr = s.ovr := rfl
@[simp] theorem commitOk_errcode (d : Bytes) (s : State) : (commitOk d s).errcode = 0 := rfl
@[simp] theorem commitOk_inLen (d : Bytes) (s : State) : (commitOk d s).inLen = s.inLen := rfl
@[simp] theorem commitOk_outLen (d : Bytes) (s : State) : (commitOk d s).outLen = BitVec.ofNat 32 d.length := rfl
@[simp] theorem commitOk_keyLen (d : Bytes) (s : State) : (commitOk d s).keyLen = s.keyLen := rfl
@[simp] theorem commitOk_mem (d : Bytes) (s : State) : (commitOk d s).mem = Memory.writeBytes s.mem outBase d := rfl
@[simp] theorem commitOk_agenda (d : Bytes) (s : State) : (commitOk d s).agenda = s.agenda := rfl
@[simp] theorem commitOk_resp (d : Bytes) (s : State) : (commitOk d s).resp = s.resp := rfl
@[simp] theorem commitOk_draws (d : Bytes) (s : State) : (commitOk d s).draws = s.draws := rfl

@[simp] theorem commitErr_params (e : Err) (s : State) : (commitErr e s).params = s.params := rfl
@[simp] theorem commitErr_ie (e : Err) (s : State) : (commitErr e s).ie = s.ie := rfl
@[simp] theorem commitErr_cmd (e : Err) (s : State) : (commitErr e s).cmd = s.cmd := rfl
@[simp] theorem commitErr_busy (e : Err) (s : State) : (commitErr e s).busy = s.busy := rfl
@[simp] theorem commitErr_done (e : Err) (s : State) : (commitErr e s).done = s.done := rfl
@[simp] theorem commitErr_ovr (e : Err) (s : State) : (commitErr e s).ovr = s.ovr := rfl
@[simp] theorem commitErr_errcode (e : Err) (s : State) : (commitErr e s).errcode = errorCode e := rfl
@[simp] theorem commitErr_inLen (e : Err) (s : State) : (commitErr e s).inLen = s.inLen := rfl
@[simp] theorem commitErr_outLen (e : Err) (s : State) : (commitErr e s).outLen = s.outLen := rfl
@[simp] theorem commitErr_keyLen (e : Err) (s : State) : (commitErr e s).keyLen = s.keyLen := rfl
@[simp] theorem commitErr_mem (e : Err) (s : State) : (commitErr e s).mem = s.mem := rfl
@[simp] theorem commitErr_agenda (e : Err) (s : State) : (commitErr e s).agenda = s.agenda := rfl
@[simp] theorem commitErr_resp (e : Err) (s : State) : (commitErr e s).resp = s.resp := rfl
@[simp] theorem commitErr_draws (e : Err) (s : State) : (commitErr e s).draws = s.draws := rfl

@[simp] theorem finish_params (s : State) : (finish s).params = s.params := rfl
@[simp] theorem finish_ie (s : State) : (finish s).ie = s.ie := rfl
@[simp] theorem finish_cmd (s : State) : (finish s).cmd = s.cmd := rfl
@[simp] theorem finish_busy (s : State) : (finish s).busy = false := rfl
@[simp] theorem finish_done (s : State) : (finish s).done = true := rfl
@[simp] theorem finish_ovr (s : State) : (finish s).ovr = s.ovr := rfl
@[simp] theorem finish_errcode (s : State) : (finish s).errcode = s.errcode := rfl
@[simp] theorem finish_inLen (s : State) : (finish s).inLen = s.inLen := rfl
@[simp] theorem finish_outLen (s : State) : (finish s).outLen = s.outLen := rfl
@[simp] theorem finish_keyLen (s : State) : (finish s).keyLen = s.keyLen := rfl
@[simp] theorem finish_mem (s : State) : (finish s).mem = s.mem := rfl
@[simp] theorem finish_agenda (s : State) : (finish s).agenda = s.agenda := rfl
@[simp] theorem finish_resp (s : State) : (finish s).resp = s.resp := rfl
@[simp] theorem finish_draws (s : State) : (finish s).draws = s.draws + 1 := rfl

@[simp] theorem errorCompletion_params (e : Err) (s : State) : (errorCompletion e s).params = s.params := rfl
@[simp] theorem errorCompletion_ie (e : Err) (s : State) : (errorCompletion e s).ie = s.ie := rfl
@[simp] theorem errorCompletion_cmd (e : Err) (s : State) : (errorCompletion e s).cmd = s.cmd := rfl
@[simp] theorem errorCompletion_busy (e : Err) (s : State) : (errorCompletion e s).busy = false := rfl
@[simp] theorem errorCompletion_done (e : Err) (s : State) : (errorCompletion e s).done = true := rfl
@[simp] theorem errorCompletion_ovr (e : Err) (s : State) : (errorCompletion e s).ovr = s.ovr := rfl
@[simp] theorem errorCompletion_errcode (e : Err) (s : State) : (errorCompletion e s).errcode = errorCode e := rfl
@[simp] theorem errorCompletion_inLen (e : Err) (s : State) : (errorCompletion e s).inLen = s.inLen := rfl
@[simp] theorem errorCompletion_outLen (e : Err) (s : State) : (errorCompletion e s).outLen = s.outLen := rfl
@[simp] theorem errorCompletion_keyLen (e : Err) (s : State) : (errorCompletion e s).keyLen = s.keyLen := rfl
@[simp] theorem errorCompletion_mem (e : Err) (s : State) : (errorCompletion e s).mem = s.mem := rfl
@[simp] theorem errorCompletion_agenda (e : Err) (s : State) : (errorCompletion e s).agenda = s.agenda := rfl
@[simp] theorem errorCompletion_resp (e : Err) (s : State) : (errorCompletion e s).resp = s.resp := rfl
@[simp] theorem errorCompletion_draws (e : Err) (s : State) : (errorCompletion e s).draws = s.draws + 1 := rfl

@[simp] theorem acknowledge_params (w : Word) (s : State) : (acknowledge w s).params = s.params := rfl
@[simp] theorem acknowledge_ie (w : Word) (s : State) : (acknowledge w s).ie = s.ie := rfl
@[simp] theorem acknowledge_cmd (w : Word) (s : State) : (acknowledge w s).cmd = s.cmd := rfl
@[simp] theorem acknowledge_busy (w : Word) (s : State) : (acknowledge w s).busy = s.busy := rfl
@[simp] theorem acknowledge_done (w : Word) (s : State) : (acknowledge w s).done = (s.done && !w.getLsbD 1) := rfl
@[simp] theorem acknowledge_ovr (w : Word) (s : State) : (acknowledge w s).ovr = s.ovr := rfl
@[simp] theorem acknowledge_errcode (w : Word) (s : State) : (acknowledge w s).errcode = s.errcode := rfl
@[simp] theorem acknowledge_inLen (w : Word) (s : State) : (acknowledge w s).inLen = s.inLen := rfl
@[simp] theorem acknowledge_outLen (w : Word) (s : State) : (acknowledge w s).outLen = s.outLen := rfl
@[simp] theorem acknowledge_keyLen (w : Word) (s : State) : (acknowledge w s).keyLen = s.keyLen := rfl
@[simp] theorem acknowledge_mem (w : Word) (s : State) : (acknowledge w s).mem = s.mem := rfl
@[simp] theorem acknowledge_agenda (w : Word) (s : State) : (acknowledge w s).agenda = s.agenda := rfl
@[simp] theorem acknowledge_resp (w : Word) (s : State) : (acknowledge w s).resp = s.resp := rfl
@[simp] theorem acknowledge_draws (w : Word) (s : State) : (acknowledge w s).draws = s.draws := rfl

@[simp] theorem assertReset_params (s : State) : (assertReset s).params = s.params := rfl
@[simp] theorem assertReset_ie (s : State) : (assertReset s).ie = false := rfl
@[simp] theorem assertReset_cmd (s : State) : (assertReset s).cmd = 0 := rfl
@[simp] theorem assertReset_busy (s : State) : (assertReset s).busy = false := rfl
@[simp] theorem assertReset_done (s : State) : (assertReset s).done = false := rfl
@[simp] theorem assertReset_ovr (s : State) : (assertReset s).ovr = false := rfl
@[simp] theorem assertReset_errcode (s : State) : (assertReset s).errcode = 0 := rfl
@[simp] theorem assertReset_inLen (s : State) : (assertReset s).inLen = 0 := rfl
@[simp] theorem assertReset_outLen (s : State) : (assertReset s).outLen = 0 := rfl
@[simp] theorem assertReset_keyLen (s : State) : (assertReset s).keyLen = 0 := rfl
@[simp] theorem assertReset_mem (s : State) : (assertReset s).mem = [] := rfl
@[simp] theorem assertReset_agenda (s : State) : (assertReset s).agenda = s.agenda := rfl
@[simp] theorem assertReset_resp (s : State) : (assertReset s).resp = s.resp := rfl
@[simp] theorem assertReset_draws (s : State) : (assertReset s).draws = s.draws := rfl

@[simp] theorem respond_params (r : Response) (s : State) : (respond r s).params = s.params := rfl
@[simp] theorem respond_ie (r : Response) (s : State) : (respond r s).ie = s.ie := rfl
@[simp] theorem respond_cmd (r : Response) (s : State) : (respond r s).cmd = s.cmd := rfl
@[simp] theorem respond_busy (r : Response) (s : State) : (respond r s).busy = s.busy := rfl
@[simp] theorem respond_done (r : Response) (s : State) : (respond r s).done = s.done := rfl
@[simp] theorem respond_ovr (r : Response) (s : State) : (respond r s).ovr = s.ovr := rfl
@[simp] theorem respond_errcode (r : Response) (s : State) : (respond r s).errcode = s.errcode := rfl
@[simp] theorem respond_inLen (r : Response) (s : State) : (respond r s).inLen = s.inLen := rfl
@[simp] theorem respond_outLen (r : Response) (s : State) : (respond r s).outLen = s.outLen := rfl
@[simp] theorem respond_keyLen (r : Response) (s : State) : (respond r s).keyLen = s.keyLen := rfl
@[simp] theorem respond_mem (r : Response) (s : State) : (respond r s).mem = s.mem := rfl
@[simp] theorem respond_agenda (r : Response) (s : State) : (respond r s).agenda = s.agenda := rfl
@[simp] theorem respond_resp (r : Response) (s : State) : (respond r s).resp = some r := rfl
@[simp] theorem respond_draws (r : Response) (s : State) : (respond r s).draws = s.draws := rfl

@[simp] theorem withAgenda_params (es : List Event) (s : State) : (withAgenda es s).params = s.params := rfl
@[simp] theorem withAgenda_ie (es : List Event) (s : State) : (withAgenda es s).ie = s.ie := rfl
@[simp] theorem withAgenda_cmd (es : List Event) (s : State) : (withAgenda es s).cmd = s.cmd := rfl
@[simp] theorem withAgenda_busy (es : List Event) (s : State) : (withAgenda es s).busy = s.busy := rfl
@[simp] theorem withAgenda_done (es : List Event) (s : State) : (withAgenda es s).done = s.done := rfl
@[simp] theorem withAgenda_ovr (es : List Event) (s : State) : (withAgenda es s).ovr = s.ovr := rfl
@[simp] theorem withAgenda_errcode (es : List Event) (s : State) : (withAgenda es s).errcode = s.errcode := rfl
@[simp] theorem withAgenda_inLen (es : List Event) (s : State) : (withAgenda es s).inLen = s.inLen := rfl
@[simp] theorem withAgenda_outLen (es : List Event) (s : State) : (withAgenda es s).outLen = s.outLen := rfl
@[simp] theorem withAgenda_keyLen (es : List Event) (s : State) : (withAgenda es s).keyLen = s.keyLen := rfl
@[simp] theorem withAgenda_mem (es : List Event) (s : State) : (withAgenda es s).mem = s.mem := rfl
@[simp] theorem withAgenda_agenda (es : List Event) (s : State) : (withAgenda es s).agenda = es := rfl
@[simp] theorem withAgenda_resp (es : List Event) (s : State) : (withAgenda es s).resp = s.resp := rfl
@[simp] theorem withAgenda_draws (es : List Event) (s : State) : (withAgenda es s).draws = s.draws := rfl

@[simp] theorem writeStatus_params (w : Word) (s : State) : (writeStatus w s).params = s.params := rfl
@[simp] theorem writeStatus_ie (w : Word) (s : State) : (writeStatus w s).ie = s.ie := rfl
@[simp] theorem writeStatus_cmd (w : Word) (s : State) : (writeStatus w s).cmd = s.cmd := rfl
@[simp] theorem writeStatus_busy (w : Word) (s : State) : (writeStatus w s).busy = s.busy := rfl
@[simp] theorem writeStatus_done (w : Word) (s : State) : (writeStatus w s).done = (s.done && !w.getLsbD 1) := rfl
@[simp] theorem writeStatus_ovr (w : Word) (s : State) : (writeStatus w s).ovr = (s.ovr && !w.getLsbD 3) := rfl
@[simp] theorem writeStatus_errcode (w : Word) (s : State) : (writeStatus w s).errcode = s.errcode := rfl
@[simp] theorem writeStatus_inLen (w : Word) (s : State) : (writeStatus w s).inLen = s.inLen := rfl
@[simp] theorem writeStatus_outLen (w : Word) (s : State) : (writeStatus w s).outLen = s.outLen := rfl
@[simp] theorem writeStatus_keyLen (w : Word) (s : State) : (writeStatus w s).keyLen = s.keyLen := rfl
@[simp] theorem writeStatus_mem (w : Word) (s : State) : (writeStatus w s).mem = s.mem := rfl
@[simp] theorem writeStatus_agenda (w : Word) (s : State) : (writeStatus w s).agenda = s.agenda := rfl
@[simp] theorem writeStatus_resp (w : Word) (s : State) : (writeStatus w s).resp = s.resp := rfl
@[simp] theorem writeStatus_draws (w : Word) (s : State) : (writeStatus w s).draws = s.draws := rfl

@[simp] theorem writeCtrl_params (w : Word) (s : State) : (writeCtrl w s).params = s.params := rfl
@[simp] theorem writeCtrl_ie (w : Word) (s : State) : (writeCtrl w s).ie = w.getLsbD 0 := rfl
@[simp] theorem writeCtrl_cmd (w : Word) (s : State) : (writeCtrl w s).cmd = s.cmd := rfl
@[simp] theorem writeCtrl_busy (w : Word) (s : State) : (writeCtrl w s).busy = s.busy := rfl
@[simp] theorem writeCtrl_done (w : Word) (s : State) : (writeCtrl w s).done = s.done := rfl
@[simp] theorem writeCtrl_ovr (w : Word) (s : State) : (writeCtrl w s).ovr = s.ovr := rfl
@[simp] theorem writeCtrl_errcode (w : Word) (s : State) : (writeCtrl w s).errcode = s.errcode := rfl
@[simp] theorem writeCtrl_inLen (w : Word) (s : State) : (writeCtrl w s).inLen = s.inLen := rfl
@[simp] theorem writeCtrl_outLen (w : Word) (s : State) : (writeCtrl w s).outLen = s.outLen := rfl
@[simp] theorem writeCtrl_keyLen (w : Word) (s : State) : (writeCtrl w s).keyLen = s.keyLen := rfl
@[simp] theorem writeCtrl_mem (w : Word) (s : State) : (writeCtrl w s).mem = s.mem := rfl
@[simp] theorem writeCtrl_agenda (w : Word) (s : State) : (writeCtrl w s).agenda = s.agenda := rfl
@[simp] theorem writeCtrl_resp (w : Word) (s : State) : (writeCtrl w s).resp = s.resp := rfl
@[simp] theorem writeCtrl_draws (w : Word) (s : State) : (writeCtrl w s).draws = s.draws := rfl

@[simp] theorem overrun_params (s : State) : (overrun s).params = s.params := rfl
@[simp] theorem overrun_ie (s : State) : (overrun s).ie = s.ie := rfl
@[simp] theorem overrun_cmd (s : State) : (overrun s).cmd = s.cmd := rfl
@[simp] theorem overrun_busy (s : State) : (overrun s).busy = s.busy := rfl
@[simp] theorem overrun_done (s : State) : (overrun s).done = s.done := rfl
@[simp] theorem overrun_ovr (s : State) : (overrun s).ovr = true := rfl
@[simp] theorem overrun_errcode (s : State) : (overrun s).errcode = s.errcode := rfl
@[simp] theorem overrun_inLen (s : State) : (overrun s).inLen = s.inLen := rfl
@[simp] theorem overrun_outLen (s : State) : (overrun s).outLen = s.outLen := rfl
@[simp] theorem overrun_keyLen (s : State) : (overrun s).keyLen = s.keyLen := rfl
@[simp] theorem overrun_mem (s : State) : (overrun s).mem = s.mem := rfl
@[simp] theorem overrun_agenda (s : State) : (overrun s).agenda = s.agenda := rfl
@[simp] theorem overrun_resp (s : State) : (overrun s).resp = s.resp := rfl
@[simp] theorem overrun_draws (s : State) : (overrun s).draws = s.draws := rfl

@[simp] theorem writeInLen_params (w : Word) (s : State) : (writeInLen w s).params = s.params := rfl
@[simp] theorem writeInLen_ie (w : Word) (s : State) : (writeInLen w s).ie = s.ie := rfl
@[simp] theorem writeInLen_cmd (w : Word) (s : State) : (writeInLen w s).cmd = s.cmd := rfl
@[simp] theorem writeInLen_busy (w : Word) (s : State) : (writeInLen w s).busy = s.busy := rfl
@[simp] theorem writeInLen_done (w : Word) (s : State) : (writeInLen w s).done = s.done := rfl
@[simp] theorem writeInLen_ovr (w : Word) (s : State) : (writeInLen w s).ovr = s.ovr := rfl
@[simp] theorem writeInLen_errcode (w : Word) (s : State) : (writeInLen w s).errcode = s.errcode := rfl
@[simp] theorem writeInLen_inLen (w : Word) (s : State) : (writeInLen w s).inLen = w := rfl
@[simp] theorem writeInLen_outLen (w : Word) (s : State) : (writeInLen w s).outLen = s.outLen := rfl
@[simp] theorem writeInLen_keyLen (w : Word) (s : State) : (writeInLen w s).keyLen = s.keyLen := rfl
@[simp] theorem writeInLen_mem (w : Word) (s : State) : (writeInLen w s).mem = s.mem := rfl
@[simp] theorem writeInLen_agenda (w : Word) (s : State) : (writeInLen w s).agenda = s.agenda := rfl
@[simp] theorem writeInLen_resp (w : Word) (s : State) : (writeInLen w s).resp = s.resp := rfl
@[simp] theorem writeInLen_draws (w : Word) (s : State) : (writeInLen w s).draws = s.draws := rfl

@[simp] theorem writeKeyLen_params (w : Word) (s : State) : (writeKeyLen w s).params = s.params := rfl
@[simp] theorem writeKeyLen_ie (w : Word) (s : State) : (writeKeyLen w s).ie = s.ie := rfl
@[simp] theorem writeKeyLen_cmd (w : Word) (s : State) : (writeKeyLen w s).cmd = s.cmd := rfl
@[simp] theorem writeKeyLen_busy (w : Word) (s : State) : (writeKeyLen w s).busy = s.busy := rfl
@[simp] theorem writeKeyLen_done (w : Word) (s : State) : (writeKeyLen w s).done = s.done := rfl
@[simp] theorem writeKeyLen_ovr (w : Word) (s : State) : (writeKeyLen w s).ovr = s.ovr := rfl
@[simp] theorem writeKeyLen_errcode (w : Word) (s : State) : (writeKeyLen w s).errcode = s.errcode := rfl
@[simp] theorem writeKeyLen_inLen (w : Word) (s : State) : (writeKeyLen w s).inLen = s.inLen := rfl
@[simp] theorem writeKeyLen_outLen (w : Word) (s : State) : (writeKeyLen w s).outLen = s.outLen := rfl
@[simp] theorem writeKeyLen_keyLen (w : Word) (s : State) : (writeKeyLen w s).keyLen = w := rfl
@[simp] theorem writeKeyLen_mem (w : Word) (s : State) : (writeKeyLen w s).mem = s.mem := rfl
@[simp] theorem writeKeyLen_agenda (w : Word) (s : State) : (writeKeyLen w s).agenda = s.agenda := rfl
@[simp] theorem writeKeyLen_resp (w : Word) (s : State) : (writeKeyLen w s).resp = s.resp := rfl
@[simp] theorem writeKeyLen_draws (w : Word) (s : State) : (writeKeyLen w s).draws = s.draws := rfl

@[simp] theorem writeStore_params (x n : Nat) (w : Word) (s : State) : (writeStore x n w s).params = s.params := rfl
@[simp] theorem writeStore_ie (x n : Nat) (w : Word) (s : State) : (writeStore x n w s).ie = s.ie := rfl
@[simp] theorem writeStore_cmd (x n : Nat) (w : Word) (s : State) : (writeStore x n w s).cmd = s.cmd := rfl
@[simp] theorem writeStore_busy (x n : Nat) (w : Word) (s : State) : (writeStore x n w s).busy = s.busy := rfl
@[simp] theorem writeStore_done (x n : Nat) (w : Word) (s : State) : (writeStore x n w s).done = s.done := rfl
@[simp] theorem writeStore_ovr (x n : Nat) (w : Word) (s : State) : (writeStore x n w s).ovr = s.ovr := rfl
@[simp] theorem writeStore_errcode (x n : Nat) (w : Word) (s : State) : (writeStore x n w s).errcode = s.errcode := rfl
@[simp] theorem writeStore_inLen (x n : Nat) (w : Word) (s : State) : (writeStore x n w s).inLen = s.inLen := rfl
@[simp] theorem writeStore_outLen (x n : Nat) (w : Word) (s : State) : (writeStore x n w s).outLen = s.outLen := rfl
@[simp] theorem writeStore_keyLen (x n : Nat) (w : Word) (s : State) : (writeStore x n w s).keyLen = s.keyLen := rfl
@[simp] theorem writeStore_mem (x n : Nat) (w : Word) (s : State) : (writeStore x n w s).mem = Memory.writeBytes s.mem x (bytesOfWord n w) := rfl
@[simp] theorem writeStore_agenda (x n : Nat) (w : Word) (s : State) : (writeStore x n w s).agenda = s.agenda := rfl
@[simp] theorem writeStore_resp (x n : Nat) (w : Word) (s : State) : (writeStore x n w s).resp = s.resp := rfl
@[simp] theorem writeStore_draws (x n : Nat) (w : Word) (s : State) : (writeStore x n w s).draws = s.draws := rfl

@[simp] theorem nextDraw_params (s : State) : (nextDraw s).params = s.params := rfl
@[simp] theorem nextDraw_ie (s : State) : (nextDraw s).ie = s.ie := rfl
@[simp] theorem nextDraw_cmd (s : State) : (nextDraw s).cmd = s.cmd := rfl
@[simp] theorem nextDraw_busy (s : State) : (nextDraw s).busy = s.busy := rfl
@[simp] theorem nextDraw_done (s : State) : (nextDraw s).done = s.done := rfl
@[simp] theorem nextDraw_ovr (s : State) : (nextDraw s).ovr = s.ovr := rfl
@[simp] theorem nextDraw_errcode (s : State) : (nextDraw s).errcode = s.errcode := rfl
@[simp] theorem nextDraw_inLen (s : State) : (nextDraw s).inLen = s.inLen := rfl
@[simp] theorem nextDraw_outLen (s : State) : (nextDraw s).outLen = s.outLen := rfl
@[simp] theorem nextDraw_keyLen (s : State) : (nextDraw s).keyLen = s.keyLen := rfl
@[simp] theorem nextDraw_mem (s : State) : (nextDraw s).mem = s.mem := rfl
@[simp] theorem nextDraw_agenda (s : State) : (nextDraw s).agenda = s.agenda := rfl
@[simp] theorem nextDraw_resp (s : State) : (nextDraw s).resp = s.resp := rfl
@[simp] theorem nextDraw_draws (s : State) : (nextDraw s).draws = s.draws + 1 := rfl

@[simp] theorem placeCommand_params (w : Word) (s : State) : (placeCommand w s).params = s.params := rfl
@[simp] theorem placeCommand_ie (w : Word) (s : State) : (placeCommand w s).ie = s.ie := rfl
@[simp] theorem placeCommand_cmd (w : Word) (s : State) : (placeCommand w s).cmd = w := rfl
@[simp] theorem placeCommand_busy (w : Word) (s : State) : (placeCommand w s).busy = true := rfl
@[simp] theorem placeCommand_done (w : Word) (s : State) : (placeCommand w s).done = false := rfl
@[simp] theorem placeCommand_ovr (w : Word) (s : State) : (placeCommand w s).ovr = s.ovr := rfl
@[simp] theorem placeCommand_errcode (w : Word) (s : State) : (placeCommand w s).errcode = 0 := rfl
@[simp] theorem placeCommand_inLen (w : Word) (s : State) : (placeCommand w s).inLen = s.inLen := rfl
@[simp] theorem placeCommand_outLen (w : Word) (s : State) : (placeCommand w s).outLen = s.outLen := rfl
@[simp] theorem placeCommand_keyLen (w : Word) (s : State) : (placeCommand w s).keyLen = s.keyLen := rfl
@[simp] theorem placeCommand_mem (w : Word) (s : State) : (placeCommand w s).mem = s.mem := rfl
@[simp] theorem placeCommand_agenda (w : Word) (s : State) : (placeCommand w s).agenda = engineFirst s.agenda := rfl
@[simp] theorem placeCommand_resp (w : Word) (s : State) : (placeCommand w s).resp = s.resp := rfl
@[simp] theorem placeCommand_draws (w : Word) (s : State) : (placeCommand w s).draws = s.draws := rfl

@[simp] theorem resetWith_params (p : Params) : (State.resetWith p).params = p := rfl
@[simp] theorem resetWith_ie (p : Params) : (State.resetWith p).ie = false := rfl
@[simp] theorem resetWith_cmd (p : Params) : (State.resetWith p).cmd = 0 := rfl
@[simp] theorem resetWith_busy (p : Params) : (State.resetWith p).busy = false := rfl
@[simp] theorem resetWith_done (p : Params) : (State.resetWith p).done = false := rfl
@[simp] theorem resetWith_ovr (p : Params) : (State.resetWith p).ovr = false := rfl
@[simp] theorem resetWith_errcode (p : Params) : (State.resetWith p).errcode = 0 := rfl
@[simp] theorem resetWith_inLen (p : Params) : (State.resetWith p).inLen = 0 := rfl
@[simp] theorem resetWith_outLen (p : Params) : (State.resetWith p).outLen = 0 := rfl
@[simp] theorem resetWith_keyLen (p : Params) : (State.resetWith p).keyLen = 0 := rfl
@[simp] theorem resetWith_mem (p : Params) : (State.resetWith p).mem = [] := rfl
@[simp] theorem resetWith_agenda (p : Params) : (State.resetWith p).agenda = [] := rfl
@[simp] theorem resetWith_resp (p : Params) : (State.resetWith p).resp = none := rfl
@[simp] theorem resetWith_draws (p : Params) : (State.resetWith p).draws = 0 := rfl

end Sys2Proof.Machine
end

