-- ==== Sys2Proof/Laws/Ops.lean ====
section
/-! SUPPORT. For each shared operation, what it can do, said once. -/

namespace Sys2Proof.Machine

/-! ## Byte sequences -/

@[simp] theorem readBytes_length (s : State) (x n : Nat) : (readBytes s x n).length = n := by
  simp [readBytes]

theorem readBytes_getElem? {i n : Nat} (h : i < n) (s : State) (x : Nat) :
    (readBytes s x n)[i]? = some (readByte s (x + i)) := by
  simp [readBytes, h]

/-- A reader of a written byte sees what was written. -/
theorem readByte_of_read {s : State} {x : Nat} {v : Byte} (h : Memory.read s.mem x = some v) :
    readByte s x = v := by simp [readByte, h]

/-- Bytes that all hold written values read as those values, whatever the draw. -/
theorem readBytes_of_holds {s : State} {x : Nat} {d : Bytes} (h : holds s x d) :
    readBytes s x d.length = d := by
  apply List.ext_getElem?
  intro i
  by_cases hi : i < d.length
  · rw [readBytes_getElem? hi]
    have hr : Memory.read s.mem (x + i) = some d[i] := by rw [h i hi, List.getElem?_eq_getElem hi]
    rw [readByte_of_read hr, List.getElem?_eq_getElem hi]
  · rw [List.getElem?_eq_none (by simp; omega), List.getElem?_eq_none (by omega)]

/-- Two states with the same stores and the same draw read the same bytes. -/
theorem readBytes_congr {s t : State} (hm : t.mem = s.mem) (hd : t.draws = s.draws) (x n : Nat) :
    readBytes t x n = readBytes s x n := by
  simp [readBytes, readByte, hm, hd]

@[simp] theorem bytesOfWord_length (n : Nat) (w : Word) : (bytesOfWord n w).length = n := by
  simp [bytesOfWord]

theorem bytesOfWord_getElem? {i n : Nat} (h : i < n) (w : Word) :
    (bytesOfWord n w)[i]? = some (w.extractLsb' (8 * i) 8) := by
  simp [bytesOfWord, h]

@[simp] theorem sourceBytes_length (src : Src) (s : State) :
    (sourceBytes src s).length = sourceLen src s := by simp [sourceBytes]

@[simp] theorem keyBytes_length (s : State) : (keyBytes s).length = s.params.nk := by simp [keyBytes]

theorem sourceLen_lt (src : Src) (s : State) : sourceLen src s < 2 ^ 32 := by
  cases src
  · exact s.inLen.isLt
  · exact s.outLen.isLt

/-! ## Completions -/

theorem errorCodeOf_le (e : Err) : (errorCode e).toNat ≤ 6 := by cases e <;> decide

theorem errorCodeOf_ne_zero (e : Err) : errorCode e ≠ 0 := by cases e <;> decide

/-- An error completion is a failure with its code. -/
theorem errorCompletion_failed (e : Err) (s : State) : Failed s (errorCompletion e s) (errorCode e) :=
  { frame := ⟨rfl, rfl, rfl, rfl, rfl, rfl, rfl, rfl⟩
    busy := rfl, done := rfl, errcode := rfl, outLen := rfl, mem := rfl }

@[simp] theorem complete_err (e : Err) (s : State) : complete (.err e) s = errorCompletion e s := rfl

@[simp] theorem complete_ok (d : Bytes) (s : State) : complete (.ok d) s = finish (commitOk d s) := rfl

/-- A completion with a result that a 32-bit length can name is a success with that result. -/
theorem complete_ok_succeeded {d : Bytes} (h : d.length < 2 ^ 32) (s : State) :
    Succeeded s (complete (.ok d) s) d :=
  { frame := ⟨rfl, rfl, rfl, rfl, rfl, rfl, rfl, rfl⟩
    busy := rfl, done := rfl, errcode := rfl
    outLen := by simp only [complete_ok, finish_outLen, commitOk_outLen, BitVec.toNat_ofNat]
                 exact Nat.mod_eq_of_lt h
    out := fun _ hj => Memory.read_writeBytes_inside hj _ _
    rest := fun _ hx => Memory.read_writeBytes_outside hx _ }

/-- No completion changes what the frame names. -/
theorem complete_frame (r : Result) (s : State) : CommandFrame s (complete r s) := by
  cases r <;> exact ⟨rfl, rfl, rfl, rfl, rfl, rfl, rfl, rfl⟩

@[simp] theorem complete_busy (r : Result) (s : State) : (complete r s).busy = false := by
  cases r <;> rfl
@[simp] theorem complete_done (r : Result) (s : State) : (complete r s).done = true := by
  cases r <;> rfl
@[simp] theorem complete_params (r : Result) (s : State) : (complete r s).params = s.params := by
  cases r <;> rfl
@[simp] theorem complete_ie (r : Result) (s : State) : (complete r s).ie = s.ie := by cases r <;> rfl
@[simp] theorem complete_cmd (r : Result) (s : State) : (complete r s).cmd = s.cmd := by cases r <;> rfl
@[simp] theorem complete_ovr (r : Result) (s : State) : (complete r s).ovr = s.ovr := by cases r <;> rfl
@[simp] theorem complete_inLen (r : Result) (s : State) : (complete r s).inLen = s.inLen := by
  cases r <;> rfl
@[simp] theorem complete_keyLen (r : Result) (s : State) : (complete r s).keyLen = s.keyLen := by
  cases r <;> rfl
@[simp] theorem complete_agenda (r : Result) (s : State) : (complete r s).agenda = s.agenda := by
  cases r <;> rfl
@[simp] theorem complete_resp (r : Result) (s : State) : (complete r s).resp = s.resp := by
  cases r <;> rfl
@[simp] theorem complete_draws (r : Result) (s : State) : (complete r s).draws = s.draws + 1 := by
  cases r <;> rfl

/-! ## Execute -/

/-- The three outcomes of the shared checks (40_command_lifecycle.md R114). -/
theorem execute_cases (z : Bool) (src : Src) (op : Bytes → Result) (s : State) :
    (z = true ∧ execute z src op s = .err .invalidBlockSize) ∨
    (z = false ∧ s.params.bufCap < sourceLen src s ∧ execute z src op s = .err .capacity) ∨
    (z = false ∧ sourceLen src s ≤ s.params.bufCap ∧ execute z src op s = op (sourceBytes src s)) := by
  cases z
  · by_cases h : s.params.bufCap < sourceLen src s
    · exact .inr (.inl ⟨rfl, h, by simp [execute, h]⟩)
    · exact .inr (.inr ⟨rfl, Nat.le_of_not_lt h, by simp [execute, h]⟩)
  · exact .inl ⟨rfl, rfl⟩

theorem execute_blockSizeZero (src : Src) (op : Bytes → Result) (s : State) :
    execute true src op s = .err .invalidBlockSize := rfl

theorem execute_overCapacity {src : Src} {s : State} (h : s.params.bufCap < sourceLen src s)
    (op : Bytes → Result) : execute false src op s = .err .capacity := by
  simp [execute, h]

theorem execute_fits {src : Src} {s : State} (h : sourceLen src s ≤ s.params.bufCap)
    (op : Bytes → Result) : execute false src op s = op (sourceBytes src s) := by
  simp [execute, Nat.not_lt.2 h]

/-! ## The instructions -/

/-- The result each command's pure function gives (40_command_lifecycle.md R114). -/
def resultOf (i : Instr) (s : State) : Result :=
  match i with
  | .pad src bs => execute (decide (bs = 0)) src (padCmd s.params bs) s
  | .unpad src bs => execute (decide (bs = 0)) src (fun d => unpadBytes d bs) s
  | .encrypt src => execute false src (ecbEnc s.params s.keyLen.toNat (keyBytes s)) s
  | .decrypt src => execute false src (ecbDec s.params s.keyLen.toNat (keyBytes s)) s

/-- Every command completes, with the result its pure function gives. -/
theorem exec_eq (i : Instr) (s : State) : exec i s = .next (complete (resultOf i s) s) := by
  cases i <;> rfl

/-- The engine's turn while a command is in flight. -/
theorem engineStep_busy {s : State} (h : s.busy = true) :
    (∃ i, decode s.cmd = .legal i ∧ engineStep s = exec i s) ∨
    (∃ why, decode s.cmd = .illegal why ∧
      engineStep s = .next (errorCompletion .illegalCommand s)) := by
  cases hd : decode s.cmd with
  | legal i => exact .inl ⟨i, rfl, by simp [engineStep, h, hd]⟩
  | illegal why => exact .inr ⟨why, rfl, by simp [engineStep, h, hd]⟩

theorem engineStep_idle {s : State} (h : s.busy = false) : engineStep s = .next s := by
  simp [engineStep, h]

/-- The result the in-flight command word completes with. -/
def wordResult (s : State) : Result :=
  match decode s.cmd with
  | .legal i => resultOf i s
  | .illegal _ => .err .illegalCommand

/-- The engine's turn while a command is in flight is one completion. -/
theorem engineStep_eq {s : State} (h : s.busy = true) :
    engineStep s = .next (complete (wordResult s) s) := by
  rcases engineStep_busy h with ⟨i, hd, he⟩ | ⟨why, hd, he⟩
  · rw [he, exec_eq, wordResult, hd]
  · rw [he, wordResult, hd]; rfl

/-! ## One step -/

/-- Everything one step can do. -/
theorem step_cases {s t : State} (h : step s = .next t) :
    (∃ es, engineTurn s es ∧ s.busy = true ∧
      t = complete (wordResult (withAgenda es s)) (withAgenda es s)) ∨
    (∃ es, engineTurn s es ∧ s.busy = false ∧ t = withAgenda es s) ∨
    (∃ addr size es, s.agenda = .read addr size :: es ∧ t = hostRead addr size (withAgenda es s)) ∨
    (∃ addr size wdata es, s.agenda = .write addr size wdata :: es ∧
      t = hostWrite addr size wdata (withAgenda es s)) ∨
    (∃ es, s.agenda = .reset :: es ∧ t = assertReset (withAgenda es s)) := by
  have engine : ∀ es, engineTurn s es → engineStep (withAgenda es s) = .next t →
      (∃ es, engineTurn s es ∧ s.busy = true ∧
        t = complete (wordResult (withAgenda es s)) (withAgenda es s)) ∨
      (∃ es, engineTurn s es ∧ s.busy = false ∧ t = withAgenda es s) := by
    intro es ht he
    cases hb : s.busy with
    | true =>
      rw [engineStep_eq (s := withAgenda es s) hb] at he
      injection he with he
      exact .inl ⟨es, ht, rfl, he.symm⟩
    | false =>
      rw [engineStep_idle (s := withAgenda es s) hb] at he
      injection he with he
      exact .inr ⟨es, ht, rfl, he.symm⟩
  cases ha : s.agenda with
  | nil =>
    have hs : withAgenda [] s = s := by rw [← ha]; rfl
    have he : engineStep (withAgenda [] s) = .next t := by
      rw [hs]; simpa [step, advance, ha] using h
    rcases engine [] (.inl ⟨ha, rfl⟩) he with h | h
    · exact .inl h
    · exact .inr (.inl h)
  | cons e es =>
    cases e with
    | engine =>
      have he : engineStep (withAgenda es s) = .next t := by simpa [step, advance, ha] using h
      rcases engine es (.inr ha) he with h | h
      · exact .inl h
      · exact .inr (.inl h)
    | read addr size =>
      simp only [step, advance, ha] at h
      injection h with h
      exact .inr (.inr (.inl ⟨addr, size, es, rfl, h.symm⟩))
    | write addr size wdata =>
      simp only [step, advance, ha] at h
      injection h with h
      exact .inr (.inr (.inr (.inl ⟨addr, size, wdata, es, rfl, h.symm⟩)))
    | reset =>
      simp only [step, advance, ha] at h
      injection h with h
      exact .inr (.inr (.inr (.inr ⟨es, rfl, h.symm⟩)))

/-- The engine's turn, as a step. -/
theorem step_engine {s : State} {es : List Event} (h : engineTurn s es) :
    step s = engineStep (withAgenda es s) := by
  rcases h with ⟨ha, rfl⟩ | ha
  · have hs : withAgenda [] s = s := by rw [← ha]; rfl
    rw [hs]; simp [step, advance, ha]
  · simp [step, advance, ha]

/-- A completion, as a step. -/
theorem step_completes {s : State} {es : List Event} (h : engineTurn s es) (hb : s.busy = true) :
    step s = .next (complete (wordResult (withAgenda es s)) (withAgenda es s)) := by
  rw [step_engine h, engineStep_eq (s := withAgenda es s) hb]

theorem step_read {s : State} {addr : Word} {size : Size} {es : List Event}
    (h : s.agenda = .read addr size :: es) :
    step s = .next (hostRead addr size (withAgenda es s)) := by
  simp [step, advance, h]

theorem step_write {s : State} {addr : Word} {size : Size} {wdata : Word} {es : List Event}
    (h : s.agenda = .write addr size wdata :: es) :
    step s = .next (hostWrite addr size wdata (withAgenda es s)) := by
  simp [step, advance, h]

theorem step_reset {s : State} {es : List Event} (h : s.agenda = .reset :: es) :
    step s = .next (assertReset (withAgenda es s)) := by
  simp [step, advance, h]

/-! ## Host accesses -/

/-- A read: its target's data, or an ERROR (20_memory.md R73). -/
theorem hostRead_cases (addr : Word) (size : Size) (s : State) :
    (target s.params size.bytes addr.toNat = none ∧
      hostRead addr size s = respond (.read .error 0) s) ∨
    (∃ t, target s.params size.bytes addr.toNat = some t ∧
      hostRead addr size s = respond (.read .ok (readTarget t size.bytes s)) (nextDraw s)) := by
  cases h : target s.params size.bytes addr.toNat with
  | none => exact .inl ⟨rfl, by simp [hostRead, h]⟩
  | some t => exact .inr ⟨t, rfl, by simp [hostRead, h]⟩

/-- A write: ERROR, dropped with OVR set, or performed (20_memory.md R73). -/
theorem hostWrite_cases (addr : Word) (size : Size) (wdata : Word) (s : State) :
    (target s.params size.bytes addr.toNat = none ∧
      hostWrite addr size wdata s = respond (.write .error) s) ∨
    (∃ t, target s.params size.bytes addr.toNat = some t ∧
      ((readOnly t = true ∧ hostWrite addr size wdata s = respond (.write .error) s) ∨
       (readOnly t = false ∧ frozen t = true ∧ s.busy = true ∧
          hostWrite addr size wdata s = respond (.write .ok) (overrun s)) ∨
       (readOnly t = false ∧ (frozen t = false ∨ s.busy = false) ∧
          hostWrite addr size wdata s =
            respond (.write .ok) (writeTarget t size.bytes wdata s)))) := by
  cases h : target s.params size.bytes addr.toNat with
  | none => exact .inl ⟨rfl, by simp [hostWrite, h]⟩
  | some t =>
    refine .inr ⟨t, rfl, ?_⟩
    cases hr : readOnly t with
    | true => exact .inl ⟨rfl, by simp [hostWrite, h, hr]⟩
    | false =>
      cases hf : frozen t with
      | false => exact .inr (.inr ⟨rfl, .inl rfl, by simp [hostWrite, h, hr, hf]⟩)
      | true =>
        cases hb : s.busy with
        | true => exact .inr (.inl ⟨rfl, rfl, rfl, by simp [hostWrite, h, hr, hf, hb]⟩)
        | false => exact .inr (.inr ⟨rfl, .inr rfl, by simp [hostWrite, h, hr, hf, hb]⟩)

/-- `inWindow` in words (20_memory.md R65). -/
theorem inWindow_iff (p : Params) (st : Store) (n x : Nat) :
    inWindow p st n x = true ↔
      storeBase st ≤ x ∧ x - storeBase st + n ≤ storeCap p st ∧ (n = 4 → (x - storeBase st) % 4 = 0) := by
  simp only [inWindow, Bool.and_eq_true, Bool.or_eq_true, decide_eq_true_eq]
  constructor
  · rintro ⟨⟨h1, h2⟩, h3⟩
    exact ⟨h1, h2, fun h => h3.resolve_left (fun h' => h' h)⟩
  · rintro ⟨h1, h2, h3⟩
    exact ⟨⟨h1, h2⟩, by by_cases h : n = 4 <;> simp [h, h3]⟩

/-- Every register offset is below the KEY window. -/
theorem regAt_lt {x : Nat} (h : (regAt x).isSome = true) : x ≤ 0x024 := by
  unfold regAt at h
  repeat' split at h
  all_goals first | omega | cases h

/-- What a target says of the access that reaches it. -/
theorem target_some {p : Params} {n x : Nat} {t : Target} (h : target p n x = some t) :
    (n = 1 ∨ n = 4) ∧
    ((∃ r, regAt x = some r ∧ n = 4 ∧ t = .reg r) ∨
     (∃ st, regAt x = none ∧ inWindow p st n x = true ∧ t = .store st x)) := by
  unfold target at h
  split at h
  · cases h
  · rename_i hn
    refine ⟨by omega, ?_⟩
    cases hr : regAt x with
    | some r =>
      rw [hr] at h
      by_cases h4 : n = 4
      · simp only [Option.isSome_some, if_true, h4, Option.map_some, Option.some.injEq] at h
        exact .inl ⟨r, rfl, h4, h.symm⟩
      · simp [h4] at h
    | none =>
      rw [hr] at h
      simp only [Option.isSome_none, Bool.false_eq_true, if_false] at h
      split at h
      · rename_i hw; injection h with h; exact .inr ⟨.key, rfl, hw, h.symm⟩
      · split at h
        · rename_i hw; injection h with h; exact .inr ⟨.inBuf, rfl, hw, h.symm⟩
        · split at h
          · rename_i hw; injection h with h; exact .inr ⟨.outBuf, rfl, hw, h.symm⟩
          · cases h

/-- A word access to a register offset reaches the register (20_memory.md R64). -/
theorem target_reg {x : Nat} {r : Reg} (h : regAt x = some r) (p : Params) :
    target p 4 x = some (.reg r) := by
  simp [target, h]

/-- With the parameters in their ranges the three windows and the register page do not meet, so an
access in a store's window reaches that store (20_memory.md R62). -/
theorem target_store {p : Params} (hp : p.wf) {st : Store} {n x : Nat} (hn : n = 1 ∨ n = 4)
    (h : inWindow p st n x = true) : target p n x = some (.store st x) := by
  have hw := (inWindow_iff p st n x).1 h
  obtain ⟨hb, hc, -⟩ := hw
  obtain ⟨-, ⟨-, -, hk⟩, ⟨-, hcap⟩, -⟩ := hp
  have hx : 0x100 ≤ x := by
    cases st <;> simp only [storeBase, keyBase, inBase, outBase] at hb <;> omega
  have hreg : regAt x = none := by
    cases hr : regAt x with
    | none => rfl
    | some r => have := regAt_lt (x := x) (by simp [hr]); omega
  have hkey : st ≠ .key → inWindow p .key n x = false := by
    intro hne
    cases hi : inWindow p .key n x with
    | false => rfl
    | true =>
      obtain ⟨h1, h2, -⟩ := (inWindow_iff p .key n x).1 hi
      simp only [storeBase, storeCap, keyBase] at h1 h2
      cases st
      · exact absurd rfl hne
      · simp only [storeBase, inBase] at hb; omega
      · simp only [storeBase, outBase] at hb; omega
  have hin : st = .outBuf → inWindow p .inBuf n x = false := by
    intro he
    cases hi : inWindow p .inBuf n x with
    | false => rfl
    | true =>
      obtain ⟨h1, h2, -⟩ := (inWindow_iff p .inBuf n x).1 hi
      simp only [storeBase, storeCap, inBase] at h1 h2
      subst he
      simp only [storeBase, outBase] at hb
      omega
  have hn' : ¬(n ≠ 1 ∧ n ≠ 4) := by omega
  unfold target
  rw [if_neg hn', hreg]
  simp only [Option.isSome_none, Bool.false_eq_true, if_false]
  cases st with
  | key => rw [if_pos h]
  | inBuf => rw [hkey (by decide), if_neg (by decide), if_pos h]
  | outBuf => rw [hkey (by decide), hin rfl, if_neg (by decide), if_neg (by decide), if_pos h]

end Sys2Proof.Machine
end

