-- ==== Sys2Proof/Laws/Commands.lean ====
section
/-! SUPPORT. The padding codec and the ECB driver: lengths and blocks of their results. -/

namespace Sys2Proof.Machine

/-! ## Padding -/

theorem padBytes_length (d : Bytes) (b : Nat) : (padBytes d b).length = d.length + padLen d b := by
  simp [padBytes]

theorem padLen_pos (d : Bytes) {b : Nat} (h : 1 ≤ b) : 1 ≤ padLen d b := by
  have := Nat.mod_lt d.length (show b > 0 from h)
  unfold padLen; omega

theorem padLen_le (d : Bytes) (b : Nat) : padLen d b ≤ b := Nat.sub_le _ _

/-- What `padCmd` can answer (41_padding.md R134). -/
theorem padCmd_cases (p : Params) (b : Nat) (d : Bytes) :
    (p.bufCap < (padBytes d b).length ∧ padCmd p b d = .err .capacity) ∨
    ((padBytes d b).length ≤ p.bufCap ∧ padCmd p b d = .ok (padBytes d b)) := by
  by_cases h : p.bufCap < (padBytes d b).length
  · exact .inl ⟨h, by simp [padCmd, h]⟩
  · exact .inr ⟨Nat.le_of_not_lt h, by simp [padCmd, h]⟩

/-- What `unpadBytes` can answer: the input less a footer of `p` bytes, or INVALID_PADDING
(41_padding.md R133). -/
theorem unpadBytes_cases (d : Bytes) (b : Nat) :
    (unpadBytes d b = .err .invalidPadding) ∨
    (∃ p, p ≤ d.length ∧ unpadBytes d b = .ok (d.take (d.length - p))) := by
  unfold unpadBytes
  split
  · exact .inl rfl
  · repeat' split
    all_goals first
      | exact .inl rfl
      | exact .inr ⟨_, by omega, rfl⟩

/-! ## Blocks -/

theorem blockAt_length {nb : Nat} {d : Bytes} {i : Nat} (h : i < d.length / nb) :
    (blockAt nb d i).length = nb := by
  have hle : (i + 1) * nb ≤ d.length :=
    Nat.le_trans (Nat.mul_le_mul_right nb h) (Nat.div_mul_le_self _ _)
  rw [Nat.add_mul, Nat.one_mul] at hle
  simp only [blockAt, List.length_take, List.length_drop]
  omega

/-- Concatenating `n` blocks of `nb` bytes gives `n * nb` bytes, and its block `i` is the `i`-th. -/
theorem flatMap_range_blocks {nb : Nat} (g : Nat → Bytes) (n : Nat) (h : ∀ i, i < n → (g i).length = nb) :
    ((List.range n).flatMap g).length = n * nb ∧
    ∀ i, i < n → blockAt nb ((List.range n).flatMap g) i = g i := by
  induction n with
  | zero => simp
  | succ n ih =>
    obtain ⟨hl, hb⟩ := ih (fun i hi => h i (by omega))
    have hn := h n (by omega)
    have hsplit : (List.range (n + 1)).flatMap g = (List.range n).flatMap g ++ g n := by
      simp [List.range_succ]
    refine ⟨by rw [hsplit, List.length_append, hl, hn, Nat.add_mul, Nat.one_mul], fun i hi => ?_⟩
    rw [hsplit]
    by_cases hin : i < n
    · have hle : (i + 1) * nb ≤ n * nb := Nat.mul_le_mul_right nb hin
      rw [Nat.add_mul, Nat.one_mul] at hle
      have hdrop : i * nb ≤ ((List.range n).flatMap g).length := by omega
      have htake : nb ≤ (((List.range n).flatMap g).drop (i * nb)).length := by
        rw [List.length_drop]; omega
      rw [← hb i hin]
      unfold blockAt
      rw [List.drop_append_of_le_length hdrop, List.take_append_of_le_length htake]
    · have : i = n := by omega
      subst this
      unfold blockAt
      rw [List.drop_append, List.drop_eq_nil_of_le (by omega), hl, Nat.sub_self, List.drop_zero,
        List.nil_append, ← hn, List.take_length]

theorem addRotE_length (n : Nat) (k x : Bytes) : (addRotE n k x).length = n := by simp [addRotE]
theorem addRotD_length (n : Nat) (k x : Bytes) : (addRotD n k x).length = n := by simp [addRotD]

@[simp] theorem encryptBlock_length (p : Params) (k x : Bytes) : (encryptBlock p k x).length = p.nb := by
  unfold encryptBlock; split
  · split <;> simp [addRotE_length]
  · simp

@[simp] theorem decryptBlock_length (p : Params) (k x : Bytes) : (decryptBlock p k x).length = p.nb := by
  unfold decryptBlock; split
  · split <;> simp [addRotD_length]
  · simp

/-! ## The laws of the cipher port at a valid key (00_scope.md R8) -/

theorem ofFn_tuple {n : Nat} {x : Bytes} (h : x.length = n) : List.ofFn (tuple n x) = x := by
  subst h
  refine List.ext_getElem (by simp) fun i _ h => ?_
  simp [tuple, h]

theorem tuple_ofFn {n : Nat} (g : Fin n → Byte) : tuple n (List.ofFn g) = g := by
  funext i
  simp [tuple]

/-- Rotating an index of `n` places forward and back, and back and forward, gives it again. -/
theorem rotate_index {j n : Nat} (h : j < n) :
    ((j + 1) % n + n - 1) % n = j ∧ ((j + n - 1) % n + 1) % n = j := by
  constructor
  · by_cases hj : j + 1 = n
    · subst hj
      simp
    · rw [Nat.mod_eq_of_lt (show j + 1 < n by omega), show j + 1 + n - 1 = j + n by omega,
        Nat.add_mod_right, Nat.mod_eq_of_lt h]
  · cases j with
    | zero =>
      rw [Nat.mod_eq_of_lt (show 0 + n - 1 < n by omega), show 0 + n - 1 + 1 = n by omega, Nat.mod_self]
    | succ j =>
      rw [show j + 1 + n - 1 = j + n by omega, Nat.add_mod_right, Nat.mod_eq_of_lt (show j < n by omega),
        Nat.mod_eq_of_lt h]

theorem addRotE_getD {n j : Nat} (h : j < n) (k x : Bytes) :
    (addRotE n k x).getD j 0 = x.getD ((j + 1) % n) 0 + k.getD j 0 := by
  simp [addRotE, h]

theorem addRotD_getD {n j : Nat} (h : j < n) (k y : Bytes) :
    (addRotD n k y).getD j 0 = y.getD ((j + n - 1) % n) 0 - k.getD ((j + n - 1) % n) 0 := by
  simp [addRotD, h]

theorem bytes_ext_getD {x y : Bytes} (hl : x.length = y.length)
    (h : ∀ j, j < y.length → x.getD j 0 = y.getD j 0) : x = y := by
  refine List.ext_getElem hl fun i h1 h2 => ?_
  simpa [h1, h2] using h i h2

/-- ADD-ROT's transforms are inverse to each other. -/
theorem addRot_inverse (n : Nat) (k : Bytes) {x : Bytes} (hx : x.length = n) :
    addRotD n k (addRotE n k x) = x ∧ addRotE n k (addRotD n k x) = x := by
  constructor
  · refine bytes_ext_getD (by rw [addRotD_length, hx]) fun j hj => ?_
    rw [hx] at hj
    rw [addRotD_getD hj, addRotE_getD (Nat.mod_lt _ (by omega)), (rotate_index hj).2, BitVec.add_sub_cancel]
  · refine bytes_ext_getD (by rw [addRotE_length, hx]) fun j hj => ?_
    rw [hx] at hj
    rw [addRotE_getD hj, addRotD_getD (Nat.mod_lt _ (by omega)), (rotate_index hj).1, BitVec.sub_add_cancel]

/-- `D(k, E(k, x)) = x` at a valid key. -/
theorem decryptBlock_encryptBlock {p : Params} {k : Bytes} (hk : keyFormatOk p k = true) {x : Bytes}
    (hx : x.length = p.nb) : decryptBlock p k (encryptBlock p k x) = x := by
  unfold decryptBlock encryptBlock
  rw [if_pos hk, if_pos hk]
  cases p.cipher with
  | addRot => exact (addRot_inverse p.nb k hx).1
  | external tag => simp only [tuple_ofFn, Equiv.symm_apply_apply, ofFn_tuple hx]

/-- `E(k, D(k, y)) = y` at a valid key. -/
theorem encryptBlock_decryptBlock {p : Params} {k : Bytes} (hk : keyFormatOk p k = true) {y : Bytes}
    (hy : y.length = p.nb) : encryptBlock p k (decryptBlock p k y) = y := by
  unfold decryptBlock encryptBlock
  rw [if_pos hk, if_pos hk]
  cases p.cipher with
  | addRot => exact (addRot_inverse p.nb k hy).2
  | external tag => simp only [tuple_ofFn, Equiv.apply_symm_apply, ofFn_tuple hy]

/-- What `ecb` can answer (42_ecb.md R151, R152): the length error, then the key error, else the blocks
transformed in order. -/
theorem ecb_cases (f : Bytes → Bytes → Bytes) (p : Params) (n : Nat) (k d : Bytes) :
    (d.length % p.nb ≠ 0 ∧ ecb f p n k d = .err .invalidLength) ∨
    (d.length % p.nb = 0 ∧ keyValid p n k = false ∧ ecb f p n k d = .err .invalidKey) ∨
    (d.length % p.nb = 0 ∧ keyValid p n k = true ∧
      ecb f p n k d = .ok ((blocks p.nb d).flatMap (f k))) := by
  by_cases hl : d.length % p.nb = 0
  · by_cases hn : n = p.nk
    · cases hf : keyFormatOk p k with
      | false => exact .inr (.inl ⟨hl, by simp [keyValid, hf], by simp [ecb, hl, hn, hf]⟩)
      | true => exact .inr (.inr ⟨hl, by simp [keyValid, hn, hf], by simp [ecb, hl, hn, hf]⟩)
    · exact .inr (.inl ⟨hl, by simp [keyValid, hn], by simp [ecb, hl, hn]⟩)
  · exact .inl ⟨hl, by simp [ecb, hl]⟩

/-- The transformed blocks: as long as the source, and block `i` the transform of block `i`. -/
theorem ecb_blocks {g : Bytes → Bytes} {nb : Nat} (hg : ∀ x, (g x).length = nb) {d : Bytes}
    (h : d.length % nb = 0) :
    ((blocks nb d).flatMap g).length = d.length ∧
    ∀ i, i < d.length / nb → blockAt nb ((blocks nb d).flatMap g) i = g (blockAt nb d i) := by
  have hfm : (blocks nb d).flatMap g = (List.range (d.length / nb)).flatMap (fun i => g (blockAt nb d i)) := by
    simp [blocks, List.flatMap_map]
  obtain ⟨hl, hb⟩ := flatMap_range_blocks (nb := nb) (fun i => g (blockAt nb d i)) (d.length / nb)
    (fun i _ => hg _)
  rw [hfm]
  exact ⟨by rw [hl, Nat.div_mul_cancel (Nat.dvd_of_mod_eq_zero h)], hb⟩

/-! ## What every command's result satisfies -/

/-- A result fits the OUT buffer (40_command_lifecycle.md R115). -/
theorem resultOf_fits {i : Instr} {s : State} {d : Bytes} (h : resultOf i s = .ok d) :
    d.length ≤ s.params.bufCap := by
  have ecbCase : ∀ (src : Src) (f : Bytes → Bytes → Bytes), (∀ k x, (f k x).length = s.params.nb) →
      execute false src (ecb f s.params s.keyLen.toNat (keyBytes s)) s = .ok d →
      d.length ≤ s.params.bufCap := by
    intro src f hf he
    rcases execute_cases false src (ecb f s.params s.keyLen.toNat (keyBytes s)) s with
      ⟨hz, -⟩ | ⟨-, -, hr⟩ | ⟨-, hcap, hr⟩
    · cases hz
    · rw [hr] at he; cases he
    · rw [hr] at he
      rcases ecb_cases f s.params s.keyLen.toNat (keyBytes s) (sourceBytes src s) with
        ⟨-, hr'⟩ | ⟨-, -, hr'⟩ | ⟨hl, -, hr'⟩
      · rw [hr'] at he; cases he
      · rw [hr'] at he; cases he
      · rw [hr'] at he
        injection he with he
        subst he
        rw [(ecb_blocks (hf (keyBytes s)) hl).1, sourceBytes_length]
        exact hcap
  cases i with
  | pad src bs =>
    simp only [resultOf] at h
    rcases execute_cases (decide (bs = 0)) src (padCmd s.params bs) s with
      ⟨-, hr⟩ | ⟨-, -, hr⟩ | ⟨-, hcap, hr⟩
    · rw [hr] at h; cases h
    · rw [hr] at h; cases h
    · rw [hr] at h
      rcases padCmd_cases s.params bs (sourceBytes src s) with ⟨-, hr'⟩ | ⟨hl, hr'⟩
      · rw [hr'] at h; cases h
      · rw [hr'] at h; injection h with h; subst h; exact hl
  | unpad src bs =>
    simp only [resultOf] at h
    rcases execute_cases (decide (bs = 0)) src (fun d => unpadBytes d bs) s with
      ⟨-, hr⟩ | ⟨-, -, hr⟩ | ⟨-, hcap, hr⟩
    · rw [hr] at h; cases h
    · rw [hr] at h; cases h
    · rw [hr] at h
      rcases unpadBytes_cases (sourceBytes src s) bs with hr' | ⟨p, -, hr'⟩
      · rw [hr'] at h; cases h
      · rw [hr'] at h; injection h with h; subst h
        rw [List.length_take, sourceBytes_length]; omega
  | encrypt src => exact ecbCase src (encryptBlock s.params) (encryptBlock_length s.params) h
  | decrypt src => exact ecbCase src (decryptBlock s.params) (decryptBlock_length s.params) h

/-- The in-flight word's result fits the OUT buffer. -/
theorem wordResult_fits {s : State} {d : Bytes} (h : wordResult s = .ok d) :
    d.length ≤ s.params.bufCap := by
  unfold wordResult at h
  split at h
  · exact resultOf_fits h
  · cases h

end Sys2Proof.Machine
end

