-- ==== Sys2Proof/Laws/Decode.lean ====
section
/-! SUPPORT. The fields of a command word and the word of an instruction, as numbers. -/

namespace Sys2Proof

theorem opField_toNat (w : Word) : (opField w).toNat = w.toNat % 16 := by
  simp [opField, BitVec.extractLsb'_toNat]

theorem rsv0Field_toNat (w : Word) : (rsv0Field w).toNat = w.toNat / 32 % 8 := by
  simp [rsv0Field, BitVec.extractLsb'_toNat, Nat.shiftRight_eq_div_pow]

theorem bsField_eq (w : Word) : bsField w = w.toNat / 256 % 256 := by
  simp [bsField, BitVec.extractLsb'_toNat, Nat.shiftRight_eq_div_pow]

theorem rsv1Field_toNat (w : Word) : (rsv1Field w).toNat = w.toNat / 65536 := by
  have := w.isLt
  simp only [rsv1Field, BitVec.extractLsb'_toNat, Nat.shiftRight_eq_div_pow]
  omega

theorem srcField_eq (w : Word) : srcField w = if w.toNat / 16 % 2 = 1 then .outBuf else .inBuf := by
  have h : w.getLsbD 4 = decide (w.toNat / 16 % 2 = 1) := by
    rw [← BitVec.testBit_toNat, Nat.testBit_eq_decide_div_mod_eq]
  rw [srcField, h]
  simp only [decide_eq_true_eq]

/-- Joining bit fields, as a number. -/
theorem toNat_join {n m : Nat} (x : BitVec n) (y : BitVec m) :
    (x ++ y).toNat = x.toNat * 2 ^ m + y.toNat := by
  rw [BitVec.toNat_append, ← Nat.shiftLeft_add_eq_or_of_lt y.isLt, Nat.shiftLeft_eq]

/-- A word with its fields assembled, as a number. -/
theorem assembleWord_toNat (op : BitVec 4) (src : Src) (bs : BitVec 8) :
    (assembleWord op src bs).toNat = op.toNat + 16 * (srcBit src).toNat + 256 * bs.toNat := by
  simp only [assembleWord, toNat_join, BitVec.ofNat_eq_ofNat, BitVec.toNat_ofNat]
  omega

/-- When the decoder gives each instruction, in numbers (30_encoding.md R96). -/
theorem decode_eq (w : Word) :
    decode w =
      if w.toNat / 65536 ≠ 0 ∨ w.toNat / 32 % 8 ≠ 0 then .illegal .reservedBits
      else if w.toNat % 16 = 1 then .legal (.pad (srcField w) (w.toNat / 256 % 256))
      else if w.toNat % 16 = 2 then .legal (.unpad (srcField w) (w.toNat / 256 % 256))
      else if w.toNat % 16 = 3 then
        if w.toNat / 256 % 256 = 0 then .legal (.encrypt (srcField w)) else .illegal .nonZeroBlockSize
      else if w.toNat % 16 = 4 then
        if w.toNat / 256 % 256 = 0 then .legal (.decrypt (srcField w)) else .illegal .nonZeroBlockSize
      else .illegal .reservedOp := by
  unfold decode
  simp only [ne_eq, ← BitVec.toNat_inj, rsv1Field_toNat, rsv0Field_toNat, opField_toNat, bsField_eq]
  rfl

end Sys2Proof
end

