-- ==== Sys2Proof/Laws/PerInstr.lean ====
section
/-! SUPPORT. Families of one lemma per instruction. -/

namespace Sys2Proof.Laws

/-- The fixed fields of an instruction's command word, by number: `OP` as 30_encoding.md R92 gives it,
`RSV0` and `RSV1` zero (R91), and `SRC` the instruction's source (R93). -/
def FixedFields.Statement (i : Instr) : Prop :=
  (encode i).toNat / 65536 = 0 ∧ (encode i).toNat / 32 % 8 = 0 ∧
    match i with
    | .pad src _ => (encode i).toNat % 16 = 1 ∧ srcField (encode i) = src
    | .unpad src _ => (encode i).toNat % 16 = 2 ∧ srcField (encode i) = src
    | .encrypt src => (encode i).toNat % 16 = 3 ∧ srcField (encode i) = src
    | .decrypt src => (encode i).toNat % 16 = 4 ∧ srcField (encode i) = src

/-- The fields of an assembled word. -/
theorem assembleWord_fields (op : BitVec 4) (src : Src) (bs : BitVec 8) :
    (assembleWord op src bs).toNat / 65536 = 0 ∧ (assembleWord op src bs).toNat / 32 % 8 = 0 ∧
      (assembleWord op src bs).toNat % 16 = op.toNat ∧ srcField (assembleWord op src bs) = src := by
  have hop := op.isLt
  have hbs := bs.isLt
  rw [srcField_eq, assembleWord_toNat]
  cases src
  · simp only [show (srcBit .inBuf).toNat = 0 from rfl]
    refine ⟨by omega, by omega, by omega, if_neg (by omega)⟩
  · simp only [show (srcBit .outBuf).toNat = 1 from rfl]
    refine ⟨by omega, by omega, by omega, if_pos (by omega)⟩

theorem FixedFields.pad (src : Src) (bs : Nat) : FixedFields.Statement (.pad src bs) :=
  assembleWord_fields 1 src (BitVec.ofNat 8 bs)

theorem FixedFields.unpad (src : Src) (bs : Nat) : FixedFields.Statement (.unpad src bs) :=
  assembleWord_fields 2 src (BitVec.ofNat 8 bs)

theorem FixedFields.encrypt (src : Src) : FixedFields.Statement (.encrypt src) :=
  assembleWord_fields 3 src 0

theorem FixedFields.decrypt (src : Src) : FixedFields.Statement (.decrypt src) :=
  assembleWord_fields 4 src 0

end Sys2Proof.Laws
end

