-- ==== Sys2Proof/Tests/Slice0.lean ====
section
/-! SUPPORT. Tests of one step each, with the expected values of spec/95_test_vectors.md and the field
tables of 30_encoding.md, and for every statement that has hypotheses a case that meets them. -/

namespace Sys2Proof.Tests

open Sys2Proof.Machine

/-! ## Small states -/

/-- The key `K1` of 95_test_vectors.md. -/
def k1 : Bytes := [0x10, 0x32, 0x54, 0x76, 0x98, 0xBA, 0xDC, 0xFE]

/-- T1 with `IN`, `OUT` and `KEY` written with the given bytes, and the schedule `es`. -/
def st (inB outB k : Bytes) (es : List Event) : State :=
  { State.reset with
    inLen := BitVec.ofNat 32 inB.length, outLen := BitVec.ofNat 32 outB.length,
    keyLen := BitVec.ofNat 32 k.length, agenda := es,
    mem := Memory.writeBytes (Memory.writeBytes (Memory.writeBytes [] keyBase k) inBase inB) outBase outB }

/-- The same with the command word `w` in flight. -/
def busyWith (w : Word) (s : State) : State := { s with cmd := w, busy := true }

/-- The next state of an outcome. -/
def nextOf : Host.Outcome State Fault Refusal → Option State
  | .next t => some t
  | .fault _ => none
  | .refused _ => none

/-- ERRCODE, OUT_LEN and the first `n` bytes of OUT after one step. -/
def outAfter (n : Nat) (s : State) : Option (BitVec 4 × Nat × List (Option Byte)) :=
  (nextOf (step s)).map fun t =>
    (t.errcode, t.outLen.toNat, (List.range n).map fun i => Memory.read t.mem (outBase + i))

/-- The response after one step. -/
def respAfter (s : State) : Option Response := (nextOf (step s)).bind State.resp

/-! ## Well-formedness, decoding, encoding -/

theorem test_pad_block_size_256_refused : (Instr.pad .inBuf 256).wellFormed = false := by decide
theorem test_unpad_block_size_256_refused : (Instr.unpad .outBuf 256).wellFormed = false := by decide

-- RSV1 (16 bits), BS (8), RSV0 (3), SRC (1), OP (4), most significant first: 30_encoding.md R91, R92.
theorem test_decode_pad :
    decode 0b0000000000000000_00001000_000_1_0001 = .legal (.pad .outBuf 8) := by decide
theorem test_decode_unpad :
    decode 0b0000000000000000_11111111_000_0_0010 = .legal (.unpad .inBuf 255) := by decide
theorem test_decode_encrypt :
    decode 0b0000000000000000_00000000_000_1_0011 = .legal (.encrypt .outBuf) := by decide
theorem test_decode_decrypt :
    decode 0b0000000000000000_00000000_000_0_0100 = .legal (.decrypt .inBuf) := by decide
-- Vectors V-CMD-1 to V-CMD-4 and V-ECB-18.
theorem test_decode_illegal :
    ([0x00000000, 0x00010801, 0x00000821, 0x00000005, 0x0000000F, 0x00000803] : List Word).map decode =
      [.illegal .reservedOp, .illegal .reservedBits, .illegal .reservedBits, .illegal .reservedOp,
       .illegal .reservedOp, .illegal .nonZeroBlockSize] := by decide
theorem test_encode :
    [encode (.pad .outBuf 8), encode (.unpad .outBuf 8), encode (.encrypt .outBuf), encode (.decrypt .inBuf)] =
      [0x00000811, 0x00000812, 0x00000013, 0x00000004] := by decide
theorem test_decodeTableWord :
    decodeTableWord 32 0x00000812 = some (.unpad .outBuf 8) ∧ decodeTableWord 32 0x00000803 = none ∧
      decodeTableWord 8 0x00000813 = some (.encrypt .outBuf) := by decide
theorem test_withFetchWord_runs :
    step (State.reset.withFetchWord 32 0x00000812) =
      exec (.unpad .outBuf 8) (State.reset.withFetchWord 32 0x00000812) := by rfl

/-! ## One step per command -/

-- V-PAD-7.
theorem test_pad_aligned :
    outAfter 10 (busyWith 0x00000501 (st [0x41, 0x42, 0x43, 0x44, 0x45] [] [] [])) =
      some (0, 10, [some 0x41, some 0x42, some 0x43, some 0x44, some 0x45,
        some 5, some 5, some 5, some 5, some 5]) := by decide
-- V-PAD-16.
theorem test_pad_in_place :
    outAfter 9 (busyWith 0x00000811 (st [] [0x41, 0x42, 0x43] [] [])) =
      some (0, 8, [some 0x41, some 0x42, some 0x43, some 5, some 5, some 5, some 5, some 5, none]) := by
  decide
-- V-UNPAD-4.
theorem test_unpad :
    outAfter 4 (busyWith 0x00000802 (st [0x41, 0x41, 0x41, 0x01] [] [] [])) =
      some (0, 3, [some 0x41, some 0x41, some 0x41, none]) := by decide
-- V-UNPAD-8, with a result of 2 bytes already in OUT.
theorem test_unpad_mismatch :
    outAfter 3 (busyWith 0x00000802 (st [0x41, 0x41, 0x41, 0x41, 0x41, 0x41, 0x03, 0x02] [7, 8] [] [])) =
      some (1, 2, [some 7, some 8, none]) := by decide
-- V-ECB-1.
theorem test_encrypt :
    outAfter 8 (busyWith 0x00000003 (st [0, 1, 2, 3, 4, 5, 6, 7] [] k1 [])) =
      some (0, 8, [some 0x11, some 0x34, some 0x57, some 0x7A, some 0x9D, some 0xC0, some 0xE3,
        some 0xFE]) := by decide
-- V-ECB-15.
theorem test_encrypt_length_before_key :
    outAfter 1 (busyWith 0x00000003 (st [0x31, 0x32, 0x33, 0x34, 0x35, 0x36, 0x37] [] [] [])) =
      some (2, 0, [none]) := by decide
-- V-ECB-2.
theorem test_decrypt :
    outAfter 8 (busyWith 0x00000004 (st [0x11, 0x34, 0x57, 0x7A, 0x9D, 0xC0, 0xE3, 0xFE] [] k1 [])) =
      some (0, 8, [some 0, some 1, some 2, some 3, some 4, some 5, some 6, some 7]) := by decide
-- V-ECB-17.
theorem test_decrypt_short_key :
    outAfter 1 (busyWith 0x00000004
      (st [0x31, 0x32, 0x33, 0x34, 0x35, 0x36, 0x37, 0x38] [] [1, 2, 3, 4, 5, 6, 7] [])) =
      some (3, 0, [none]) := by decide

/-! ## The host port -/

-- V-BUS-1.
theorem test_registers_after_reset :
    ([0x000, 0x004, 0x008, 0x010, 0x014, 0x018, 0x01C, 0x020, 0x024] : List Word).map
        (fun a => respAfter { State.reset with agenda := [.read a .four] }) =
      ([0x50414431, 0x00100808, 0x40, 0, 0, 0, 0, 0, 0] : List Word).map
        (fun w => some (.read .ok w)) := by decide
-- V-BUS-2, V-BUS-3, V-BUS-6 and the end of V-BUS-8.
theorem test_illegal_accesses :
    ([.read 0x000 .one, .read 0x00C .four, .read 0x028 .four, .read 0x0FC .four, .read 0x01000000 .two] :
        List Event).map (fun e => respAfter { State.reset with agenda := [e] }) =
      List.replicate 5 (some (.read .error 0)) ∧
    ([.write 0x01000002 .four 1, .write 0x110 .four 1, .write 0x020 .four 5, .write 0x02000000 .one 1] :
        List Event).map (fun e => respAfter { State.reset with agenda := [e] }) =
      List.replicate 4 (some (.write .error)) := by decide
-- The state of V-CMD-10 after its write: STATUS reads 0x00000104.
theorem test_acknowledge_keeps_the_code :
    (nextOf (step { State.reset with done := true, errcode := 1,
                                     agenda := [.write 0x018 .four 0x2] })).map statusWord =
      some 0x00000104 := by decide
-- V-CMD-7 with OVR set, and V-CMD-12.
theorem test_status_while_busy :
    statusWord { State.reset with busy := true, ovr := true } = 0x00000009 ∧
      irq { State.reset with done := true, ie := true } = true := by decide
-- 30_encoding.md R101: LOADIN writes full words, then tail bytes, then IN_LEN.
theorem test_loadIn :
    loadIn [0x48, 0x65, 0x6C, 0x6C, 0x6F] =
      [.write 0x01000000 .four 0x6C6C6548, .write 0x01000004 .one 0x6F, .write 0x01C .four 5] := by decide

/-! ## Cases that meet the hypotheses of the statements -/

/-- The smallest parameters in their ranges, with an external cipher. -/
def pMin : Params :=
  { nb := 1, nk := 1, keyCap := 1, bufCap := 1, base := 0, cipher := .external 0, keyFormat := .external 0 }
/-- The largest. -/
def pMax : Params :=
  { nb := 255, nk := 255, keyCap := 255, bufCap := 2 ^ 24, base := 0, cipher := .external 1,
    keyFormat := .always }

/-- The 8 bytes "1" to "8". -/
def eight : Bytes := [0x31, 0x32, 0x33, 0x34, 0x35, 0x36, 0x37, 0x38]

theorem witness_DecodeOfEncode :
    (Instr.pad .outBuf 255).wellFormed = true ∧ (Instr.unpad .inBuf 0).wellFormed = true ∧
      (Instr.encrypt .outBuf).wellFormed = true ∧ (Instr.decrypt .inBuf).wellFormed = true := by decide
theorem witness_EncodeOfDecode : decode 0x0000FF11 = .legal (.pad .outBuf 255) := by decide
theorem witness_LegalWordMatchesExactlyOneRow :
    decode 0x0000FF12 = .legal (.unpad .outBuf 255) ∧ decode 0x00000103 = .illegal .nonZeroBlockSize := by
  decide

theorem witness_EngineTurnRunsTheDecodedCommand :
    engineTurn (busyWith 0x00000801 (st [] [] [] [])) [] ∧
      engineTurn (busyWith 0x00000801 (st [] [] [] [.engine, .reset])) [.reset] ∧
      (busyWith 0x00000801 (st [] [] [] [])).busy = true ∧
      decode (busyWith 0x00000801 (st [] [] [] [])).cmd = .legal (.pad .inBuf 8) :=
  ⟨.inl ⟨rfl, rfl⟩, .inr rfl, rfl, by decide⟩
theorem witness_IllegalWordIsAccepted :
    let s := st [] [] [] [.write 0x014 .four 0, .engine]
    s.busy = false ∧ isIllegalWord 0 ∧ s.agenda = .write 0x014 .four 0 :: .engine :: [] := by decide
theorem witness_CmdWriteAcceptsOrIsDropped :
    let s := st [] [] [] [.write 0x014 .four 0x801]
    s.busy = false ∧ (busyWith 0 s).busy = true ∧ s.agenda = .write 0x014 .four 0x801 :: [] ∧
      (busyWith 0 s).agenda = .write 0x014 .four 0x801 :: [] := by decide
theorem witness_EveryCompletion :
    engineTurn (busyWith 0 (st [] [] [] [])) [] ∧ (busyWith 0 (st [] [] [] [])).busy = true :=
  ⟨.inl ⟨rfl, rfl⟩, rfl⟩
theorem witness_ErrorCompletion :
    let s := busyWith 0 (st [] [] [] [])
    engineTurn s [] ∧ s.busy = true ∧ ∃ t, step s = .next t ∧ t.errcode ≠ 0 :=
  ⟨.inl ⟨rfl, rfl⟩, rfl, _, rfl, by decide⟩
theorem witness_CommandsWriteOnlyTheirResult_success :
    let s := st [0x41] [] [] []
    s.params.wf ∧ ∃ t, exec (.pad .inBuf 2) s = .next t ∧ t.errcode = 0 ∧
      outBase + t.outLen.toNat ≤ outBase + 2 := ⟨by decide, _, rfl, by decide, by decide⟩
theorem witness_CommandsWriteOnlyTheirResult_error :
    let s := st [0x41] [] [] []
    s.params.wf ∧ ∃ t, exec (.pad .inBuf 0) s = .next t ∧ t.errcode ≠ 0 := ⟨by decide, _, rfl, by decide⟩
-- One command word for each code of 60_exceptions.md R209, in its order, then success.
theorem witness_ErrorPriority :
    [ nextOf (step (busyWith 0x00000000 (st [] [] [] []))),
      nextOf (step (busyWith 0x00000001 (st [] [] [] []))),
      nextOf (step (busyWith 0x00000801 { st [] [] [] [] with inLen := 65 })),
      nextOf (step (busyWith 0x0000FF01 (st [] [] [] []))),
      nextOf (step (busyWith 0x00000802 (st [] [] [] []))),
      nextOf (step (busyWith 0x00000003 (st [0] [] [] []))),
      nextOf (step (busyWith 0x00000003 (st [] [] [] []))),
      nextOf (step (busyWith 0x00000802 (st [1] [] [] []))) ].map (fun o => o.map State.errcode) =
      ([4, 5, 6, 6, 1, 2, 3, 0] : List (BitVec 4)).map some := by decide +kernel
theorem witness_ResultDependsOnlyOnSourceAndKey :
    let s := st eight [] k1 []
    let s' := st [9] eight k1 [.reset]
    s.params.wf ∧ s'.params = s.params ∧ sourceBytes .outBuf s' = sourceBytes .inBuf s ∧
      s'.keyLen = s.keyLen ∧ keyBytes s' = keyBytes s ∧
      ∃ t t', exec (.encrypt .inBuf) s = .next t ∧ exec (withSource .outBuf (.encrypt .inBuf)) s' = .next t' ∧
        t.errcode = 0 ∧ 7 < t.outLen.toNat :=
  ⟨by decide, rfl, by decide, rfl, by decide, _, _, rfl, rfl, by decide +kernel, by decide +kernel⟩

theorem witness_PadAppendsPadLenBytes :
    let s := { st [] [] [] [] with inLen := 56, outLen := 63 }
    s.params.wf ∧ sourceLen .inBuf s + (8 - sourceLen .inBuf s % 8) ≤ s.params.bufCap ∧
      sourceLen .outBuf s + (1 - sourceLen .outBuf s % 1) ≤ s.params.bufCap ∧
      pMax.wf ∧ sourceLen .inBuf (State.resetWith pMax) + (255 - 0 % 255) ≤ pMax.bufCap := by decide
theorem witness_PadReportsItsErrors :
    let s := { st [] [] [] [] with inLen := 65, outLen := 64 }
    s.params.bufCap < sourceLen .inBuf s ∧ sourceLen .outBuf s ≤ s.params.bufCap ∧
      s.params.bufCap < sourceLen .outBuf s + (1 - sourceLen .outBuf s % 1) := by decide
theorem witness_hasPadding_whole : hasPadding [3, 3, 3] 3 3 := by
  refine ⟨by decide, by decide, by decide, fun j _ h => ?_⟩
  match j, h with
  | 0, _ => rfl
  | 1, _ => rfl
  | 2, _ => rfl
theorem witness_UnpadRemovesTheFooter :
    let s := st [3, 3, 3] [] [] []
    sourceLen .inBuf s ≤ s.params.bufCap ∧ hasPadding (sourceBytes .inBuf s) 3 3 := by
  have h : sourceBytes .inBuf (st [3, 3, 3] [] [] []) = [3, 3, 3] := by decide
  exact ⟨by decide, h ▸ witness_hasPadding_whole⟩
theorem witness_UnpadReportsItsErrors :
    let s := { st [] [] [] [] with outLen := 65 }
    s.params.bufCap < sourceLen .outBuf s ∧ sourceLen .inBuf s ≤ s.params.bufCap ∧
      ∀ p, ¬hasPadding (sourceBytes .inBuf s) 255 p :=
  ⟨by decide, by decide, fun p h => absurd h.1 (by have h3 : p ≤ 0 := h.2.2.1; omega)⟩
theorem witness_PadLen : ([] : Bytes).length % 255 = 0 ∧ padLen [0x41] 1 = 1 ∧ padLen [] 255 = 255 := by
  decide
theorem witness_PadInvertsUnpad : ([1] : Bytes).length % 1 = 0 ∧ unpadBytes [1] 1 = .ok [] := by decide
theorem witness_TamperedPadding :
    (8 : Nat) < (0x09 : Byte).toNat ∧ ([0x41] : Bytes).length ≤ 6 ∧ 6 < (padBytes [0x41] 8).length - 1 ∧
      (0x06 : Byte).toNat ≠ padLen [0x41] 8 ∧ (List.replicate 27 (0x41 : Byte)).length = 27 := by decide

theorem witness_EncryptTransformsEachBlock :
    let s := st eight [] k1 []
    s.params.wf ∧ sourceLen .inBuf s ≤ s.params.bufCap ∧ sourceLen .inBuf s % s.params.nb = 0 ∧
      0 < sourceLen .inBuf s / s.params.nb ∧ keyOk s := by decide
theorem witness_DecryptTransformsEachBlock_full :
    let s := { st [] [] k1 [] with outLen := 64 }
    s.params.wf ∧ sourceLen .outBuf s ≤ s.params.bufCap ∧ sourceLen .outBuf s % s.params.nb = 0 ∧
      0 < sourceLen .outBuf s / s.params.nb ∧ keyOk s := by decide
theorem witness_EncryptAndDecryptReportTheirErrors :
    let s := { st [1, 2, 3, 4, 5, 6, 7] [] [] [] with outLen := 65 }
    s.params.bufCap < sourceLen .outBuf s ∧ sourceLen .inBuf s ≤ s.params.bufCap ∧
      sourceLen .inBuf s % s.params.nb ≠ 0 ∧ sourceLen .inBuf { s with inLen := 64 } % s.params.nb = 0 ∧
      sourceLen .inBuf { s with inLen := 64 } ≤ s.params.bufCap ∧ ¬keyOk s := by decide
theorem witness_EmptySourceStillChecksTheKey :
    sourceLen .inBuf (st [] [] [] []) = 0 ∧ ¬keyOk (st [] [] [] []) ∧
      sourceLen .outBuf (st [] [] k1 []) = 0 ∧ keyOk (st [] [] k1 []) := by decide
theorem witness_EncryptAndDecryptKeepTheLength :
    (st eight [] k1 []).params.wf ∧
      (∃ t, exec (.encrypt .inBuf) (st eight [] k1 []) = .next t ∧ t.errcode = 0) ∧
      (∃ t, exec (.decrypt .outBuf) (st [] eight k1 []) = .next t ∧ t.errcode = 0) :=
  ⟨by decide, ⟨_, rfl, by decide⟩, ⟨_, rfl, by decide⟩⟩
theorem witness_EqualBlocksGiveEqualBlocks :
    let d := eight ++ eight
    Config.t1.wf ∧ (1 < d.length / 8 ∧ 0 < eight.length / 8 ∧ blockAt 8 d 1 = blockAt 8 eight 0) ∧
      (∃ c c', ecbEnc Config.t1 8 k1 d = .ok c ∧ ecbEnc Config.t1 8 k1 eight = .ok c') ∧
      (∃ c c', ecbDec Config.t1 8 k1 d = .ok c ∧ ecbDec Config.t1 8 k1 eight = .ok c') :=
  ⟨by decide, by decide, ⟨_, _, rfl, rfl⟩, ⟨_, _, rfl, rfl⟩⟩
theorem witness_EcbRoundTrips :
    Config.t1.wf ∧ eight.length % Config.t1.nb = 0 ∧ keyValid Config.t1 8 k1 = true := by decide
theorem witness_PadEncryptDecryptUnpad :
    Config.t1.wf ∧ 248 % Config.t1.nb = 0 ∧ 8 % Config.t1.nb = 0 ∧ keyValid Config.t1 8 k1 = true := by
  decide

/-- The invariant of an idle state, from closed facts. -/
theorem invariant_of_checks {s : State} (hp : s.params.wf) (hm : Memory.wf s.mem)
    (hc : ∀ c ∈ s.mem, isStoreByte s.params c.1) (ho : s.outLen.toNat ≤ s.params.bufCap)
    (hb : s.busy = false) (he : s.errcode.toNat ≤ 6) : Invariant s :=
  ⟨hp, hm, hc, ho, by simp [hb], he, by simp [hb]⟩

/-- The schedule of the command chain for block size 8. -/
def chain : List Event :=
  [issue (.pad 8 none), .engine, issue (.encrypt (some .outBuf)), .engine,
    issue (.decrypt (some .outBuf)), .engine, issue (.unpad 8 (some .outBuf)), .engine]

theorem witness_CommandChain_state :
    let s := st [0x41] [] k1 chain
    Invariant s ∧ s.busy = false ∧ 8 % s.params.nb = 0 ∧ s.inLen.toNat = ([0x41] : Bytes).length ∧
      s.keyLen.toNat = s.params.nk ∧ k1.length = s.params.nk ∧ keyFormatOk s.params k1 = true ∧
      ([0x41] : Bytes).length + padLen [0x41] 8 ≤ s.params.bufCap ∧ s.agenda = chain ++ [] :=
  ⟨invariant_of_checks (by decide) (by decide) (by decide) (by decide) rfl (by decide), rfl, by decide,
    by decide, by decide, by decide, by decide, by decide, rfl⟩
theorem witness_CommandChain_bytes :
    holds (st [0x41] [] k1 chain) inBase [0x41] ∧ holds (st [0x41] [] k1 chain) keyBase k1 := by
  constructor
  · intro j h
    match j, h with
    | 0, _ => rfl
  · intro j h
    match j, h with
    | 0, _ | 1, _ | 2, _ | 3, _ | 4, _ | 5, _ | 6, _ | 7, _ => rfl

-- The last legal byte and word of each window, and the first illegal ones after them.
theorem witness_LegalReads :
    ([.read 0x024 .four, .read 0x10C .four, .read 0x10F .one, .read 0x0100003C .four, .read 0x0200003F .one,
       .read 0x025 .four, .read 0x024 .one, .read 0x110 .one, .read 0x01000040 .four, .read 0x0200003D .four] :
        List Event).map (fun e => respAfter (withAgenda [e] (writeStore 0x0100003C 4 1
          (writeStore 0x0200003F 1 2 State.reset)))) =
      [some (.read .ok 0), some (.read .ok 0), some (.read .ok 0), some (.read .ok 1), some (.read .ok 2),
       some (.read .error 0), some (.read .error 0), some (.read .error 0), some (.read .error 0),
       some (.read .error 0)] := by decide
-- The last legal byte and word of KEY and IN and a register; then an unmapped offset, a misaligned and an
-- out-of-range word of IN and of KEY, a byte of CMD, and a read-only register.
theorem witness_LegalWrites :
    ([.write 0x10F .one 1, .write 0x10C .four 1, .write 0x0100003F .one 1, .write 0x0100003C .four 1,
       .write 0x024 .four 1, .write 0x028 .four 1, .write 0x01000002 .four 1, .write 0x01000040 .four 1,
       .write 0x10D .four 1, .write 0x110 .four 1, .write 0x014 .one 1, .write 0x020 .four 1] :
        List Event).map (fun e => respAfter (withAgenda [e] State.reset)) =
      List.replicate 5 (some (.write .ok)) ++ List.replicate 7 (some (.write .error)) := by decide
theorem witness_OtherSizes :
    (st [] [] [] [.read 0x100 .two]).agenda = .read 0x100 .two :: [] ∧
      (st [] [] [] [.write 0x014 .three 1]).agenda = .write 0x014 .three 1 :: [] := ⟨rfl, rfl⟩
theorem witness_ErrorResponse :
    (∃ t, step (st [] [] [] [.read 0x028 .four]) = .next t ∧ t.resp = some (.read .error 0)) ∧
      (∃ t, step (st [] [] [] [.write 0x020 .four 5]) = .next t ∧ t.resp = some (.write .error)) :=
  ⟨⟨_, rfl, by decide⟩, ⟨_, rfl, by decide⟩⟩
theorem witness_ReadOnlyTargets :
    let s := busyWith 0 (st [] [] [] [.write 0x0200003F .one 1])
    s.params.wf ∧ (0x0200003F : Word).toNat < 0x02000000 + s.params.bufCap ∧
      (0x020 : Word).toNat ∈ [0x000, 0x004, 0x008, 0x020] ∧ s.agenda = .write 0x0200003F .one 1 :: [] := by
  decide
theorem witness_FrozenWrites :
    let s := busyWith 0 (st [] [] [] [.write 0x10C .four 1])
    s.params.wf ∧ s.busy = true ∧ (0x10C : Word).toNat % 4 = 0 ∧
      (0x10C : Word).toNat + Size.four.bytes ≤ 0x100 + s.params.keyCap ∧
      (0x0100003F : Word).toNat + Size.one.bytes ≤ 0x01000000 + s.params.bufCap ∧
      (0x024 : Word).toNat ∈ [0x014, 0x01C, 0x024] ∧ s.agenda = .write 0x10C .four 1 :: [] := by decide
theorem witness_LengthRegisters :
    let es : List Event := [.write 0x01C .four 0xFFFFFFFF, .read 0x01C .four]
    let fs : List Event := [.write 0x024 .four 0xFFFFFFFF, .read 0x024 .four]
    (st [] [] [] es).busy = false ∧ (st [] [] [] es).agenda = es ∧ (st [] [] [] fs).agenda = fs := by decide
theorem witness_StoreWrites :
    let s := st [] [] [] [.write 0x10F .one 0x1FF]
    let s' := st [] [] [] [.write 0x0100003C .four 0x11223344]
    s.params.wf ∧ s.busy = false ∧ (0x10F : Word).toNat + Size.one.bytes ≤ 0x100 + s.params.keyCap ∧
      (0x0100003C : Word).toNat % 4 = 0 ∧
      (0x0100003C : Word).toNat + Size.four.bytes ≤ 0x01000000 + s'.params.bufCap ∧
      s.agenda = .write 0x10F .one 0x1FF :: [] ∧ s'.agenda = .write 0x0100003C .four 0x11223344 :: [] := by
  decide
theorem witness_WordWriteThenReads :
    let s := st [] [] [] [.write 0x0100003C .four 0x11223344]
    (s.params.wf ∧ s.busy = false ∧ (0x0100003C : Word).toNat % 4 = 0 ∧
      (0x0100003C : Word).toNat + 4 ≤ 0x01000000 + s.params.bufCap) ∧
      ∃ t, step s = .next t ∧ t.resp = some (.write .ok) := ⟨by decide, _, rfl, by decide⟩
theorem witness_BufferReads :
    let s := st [0x44, 0x33, 0x22, 0x11] [7] [] [.read 0x01000000 .four]
    s.params.wf ∧ (0x01000000 : Word).toNat + Size.four.bytes ≤ 0x01000000 + s.params.bufCap ∧
      Memory.read s.mem 0x01000003 = some 0x11 ∧
      (0x0200003F : Word).toNat + Size.one.bytes ≤ 0x02000000 + s.params.bufCap ∧
      s.agenda = .read 0x01000000 .four :: [] := by decide
theorem witness_CmdAndLengthRegistersReadBack :
    respAfter (busyWith 0x801 (st [] [] [] [.read 0x014 .four])) = some (.read .ok 0x801) ∧
      respAfter (st [] [5, 6] [] [.read 0x020 .four]) = some (.read .ok 2) ∧
      respAfter (busyWith 0x801 (st [5] [] [] [.read 0x01C .four])) = some (.read .ok 1) ∧
      respAfter (busyWith 0x801 (st [] [] k1 [.read 0x024 .four])) = some (.read .ok 8) := by decide
theorem witness_LoadInAndLoadKey :
    let d := List.replicate 64 (0x41 : Byte)
    let k := List.replicate 16 (0x42 : Byte)
    (st [] [] [] (loadIn d)).params.wf ∧ d.length ≤ (st [] [] [] (loadIn d)).params.bufCap ∧
      k.length ≤ (st [] [] [] (loadKey k)).params.keyCap ∧ (st [] [] [] (loadIn d)).busy = false ∧
      (st [] [] [] (loadIn d)).agenda = loadIn d ++ [] ∧
      (st [] [] [] (loadKey k)).agenda = loadKey k ++ [] := by decide
theorem witness_KeyStoreReads :
    let s := st [] [] k1 [.read 0x10C .four]
    s.params.wf ∧ (0x10C : Word).toNat % 4 = 0 ∧
      (0x10C : Word).toNat + Size.four.bytes ≤ 0x100 + s.params.keyCap ∧ s.agenda = .read 0x10C .four :: [] := by
  decide
theorem witness_ConstantRegisters :
    pMin.wf ∧ pMax.wf ∧
      ({ State.resetWith pMax with agenda := [.read 0x004 .four] } : State).agenda =
        .read 0x004 .four :: [] ∧
      ({ State.resetWith pMin with agenda := [.write 0x008 .four 1] } : State).agenda =
        .write 0x008 .four 1 :: [] := by decide

theorem witness_Invariant : Invariant (busyWith 0x801 (st [0x41] [2, 3] k1 [.reset])) :=
  ⟨by decide, by decide, by decide, by decide, by decide, by decide, fun _ => rfl⟩
theorem witness_StepKeepsTheInvariant :
    ∃ t, step (busyWith 0x801 (st [0x41] [2, 3] k1 [.reset])) = .next t := ⟨_, rfl⟩
theorem witness_OutLenNeverExceedsCapacity :
    pMax.wf ∧ ∃ t, Host.Core.run core 1 { State.resetWith pMax with agenda := [.reset] } = .next t :=
  ⟨by decide, _, rfl⟩
theorem witness_IdleEngine :
    engineTurn (st [] [] [] []) [] ∧ (st [] [] [] []).busy = false := ⟨.inl ⟨rfl, rfl⟩, rfl⟩
theorem witness_CommandInFlight : (busyWith 0x801 (st [] [] [] [.read 0 .four])).busy = true := rfl
theorem witness_OnlyCompletionSetsDone :
    let s := busyWith 0x801 { st [] [] [] [] with ie := true }
    s.done = false ∧ irq s = false ∧ ∃ t, step s = .next t ∧ t.done = true ∧ irq t = true :=
  ⟨rfl, by decide, _, rfl, by decide, by decide⟩
theorem witness_IrqRisesByEnable :
    let s := { st [] [] [] [.write 0x010 .four 1] with done := true }
    irq s = false ∧ ∃ t, step s = .next t ∧ irq t = true := ⟨by decide, _, rfl, by decide⟩
theorem witness_OperandsAreFrozen :
    let s := busyWith 0x801 (st [0x41] [] k1 [.write 0x01000000 .one 0x42])
    s.busy = true ∧ ∃ t, step s = .next t ∧ t.busy = true := ⟨rfl, _, rfl, by decide⟩
theorem witness_OnlyCompletionAndResetChangeOut :
    let s := busyWith 0x101 (st [0x41] [] [] [])
    let s' := st [] [0x41] [] [.reset]
    s.params.wf ∧ (∃ t, step s = .next t ∧ t.outLen ≠ s.outLen) ∧
      ∃ t, step s' = .next t ∧ Memory.read t.mem outBase ≠ Memory.read s'.mem outBase :=
  ⟨by decide, ⟨_, rfl, by decide⟩, ⟨_, rfl, by decide⟩⟩
theorem witness_OnlyIdleWritesAndResetChangeKeyAndIn :
    let s := st [] [] [] [.write 0x10F .one 0x42]
    let s' := st [0x41] [] [] [.reset]
    s.params.wf ∧ (∃ t, step s = .next t ∧ Memory.read t.mem 0x10F ≠ Memory.read s.mem 0x10F) ∧
      ∃ t, step s' = .next t ∧ t.inLen ≠ s'.inLen :=
  ⟨by decide, ⟨_, rfl, by decide⟩, ⟨_, rfl, by decide⟩⟩

end Sys2Proof.Tests
end

section
/-! PROOFS. 00_scope.md: the parameters never change, and nothing stops the machine. -/

namespace Sys2Proof.Machine

/-! ## Parameters -/

@[simp] theorem writeTarget_params (t : Target) (n : Nat) (w : Word) (s : State) :
    (writeTarget t n w s).params = s.params := by
  cases t with
  | reg r => cases r <;> rfl
  | store st x => cases st <;> rfl

@[simp] theorem hostRead_params (addr : Word) (size : Size) (s : State) :
    (hostRead addr size s).params = s.params := by
  rcases hostRead_cases addr size s with ⟨_, h⟩ | ⟨_, _, h⟩ <;> simp [h]

@[simp] theorem hostWrite_params (addr : Word) (size : Size) (wdata : Word) (s : State) :
    (hostWrite addr size wdata s).params = s.params := by
  rcases hostWrite_cases addr size wdata s with
    ⟨_, h⟩ | ⟨_, _, ⟨_, h⟩ | ⟨_, _, _, h⟩ | ⟨_, _, h⟩⟩ <;> simp [h]

/-- No step writes the parameters (00_scope.md R5 to R9). -/
theorem step_params {s t : State} (h : step s = .next t) : t.params = s.params := by
  rcases step_cases h with ⟨es, _, _, rfl⟩ | ⟨es, _, _, rfl⟩ | ⟨addr, size, es, _, rfl⟩ |
    ⟨addr, size, wdata, es, _, rfl⟩ | ⟨es, _, rfl⟩
  · rw [complete_params, withAgenda_params]
  · rw [withAgenda_params]
  · rw [hostRead_params, withAgenda_params]
  · rw [hostWrite_params, withAgenda_params]
  · rw [assertReset_params, withAgenda_params]

/-! ## Totality -/

/-- The engine's turn completes the command in flight, legal or illegal, or leaves an idle machine as
it is. -/
theorem engineStep_total (s : State) : ∃ t, engineStep s = .next t := by
  cases hb : s.busy with
  | true => exact ⟨_, engineStep_eq hb⟩
  | false => exact ⟨_, engineStep_idle hb⟩

/-- Whatever the schedule says next, the step answers a next state. -/
theorem step_total (s : State) : ∃ t, step s = .next t := by
  have engine {es : List Event} (h : engineTurn s es) : ∃ t, step s = .next t := by
    rw [step_engine h]
    exact engineStep_total _
  cases ha : s.agenda with
  | nil => exact engine (.inl ⟨ha, rfl⟩)
  | cons e es =>
    cases e with
    | read addr size => exact ⟨_, step_read ha⟩
    | write addr size wdata => exact ⟨_, step_write ha⟩
    | engine => exact engine (.inr ha)
    | reset => exact ⟨_, step_reset ha⟩

/-- Settles O52: a step always answers (`step_total`), and what it answers has the same parameters
(`step_params`). -/
theorem stepAlwaysAnswersWithTheSameParameters :
    Obligations.StepAlwaysAnswersWithTheSameParameters := by
  intro s
  obtain ⟨t, ht⟩ := step_total s
  exact ⟨t, ht, step_params ht⟩

end Sys2Proof.Machine
end

section
/-! PROOFS. 10_state.md: the registers as the host reads and writes them, the invariant of every
reachable state, and which steps change each part of the state. -/

namespace Sys2Proof.Machine

/-! ## What an access reaches -/

/-- The offset of a register in the register page (10_state.md R23). -/
def Reg.offset : Reg → Nat
  | .id => 0x000
  | .cfg => 0x004
  | .bufcap => 0x008
  | .ctrl => 0x010
  | .cmd => 0x014
  | .status => 0x018
  | .inLen => 0x01C
  | .outLen => 0x020
  | .keyLen => 0x024

theorem regAt_eq_some_iff {x : Nat} {r : Reg} : regAt x = some r ↔ x = r.offset := by
  constructor
  · intro h
    unfold regAt at h
    split_ifs at h <;> cases h <;> assumption
  · rintro rfl
    cases r <;> rfl

/-- Only a word access at the register's own offset reaches a register (20_memory.md R64). -/
theorem target_eq_reg {p : Params} {size : Size} {x : Nat} {r : Reg}
    (h : target p size.bytes x = some (.reg r)) : size = .four ∧ x = r.offset := by
  obtain ⟨-, ⟨r', hr, hn, ht⟩ | ⟨st, -, -, ht⟩⟩ := target_some h
  · cases ht
    refine ⟨?_, regAt_eq_some_iff.1 hr⟩
    cases size with
    | four => rfl
    | one | two | three => cases hn
  · cases ht

/-- An access that reaches a store reaches it where it is addressed, inside the store's window
(20_memory.md R65). -/
theorem target_eq_store {p : Params} {n x y : Nat} {st : Store}
    (h : target p n x = some (.store st y)) : y = x ∧ inWindow p st n x = true := by
  obtain ⟨-, ⟨r, -, -, ht⟩ | ⟨st', -, hw, ht⟩⟩ := target_some h
  · cases ht
  · cases ht
    exact ⟨rfl, hw⟩

/-- Offset `x` is a byte of the store `st` (20_memory.md R62). -/
abbrev inStore (p : Params) (st : Store) (x : Nat) : Prop :=
  storeBase st ≤ x ∧ x < storeBase st + storeCap p st

theorem isStoreByte_of_inStore {p : Params} {st : Store} {x : Nat} (h : inStore p st x) :
    isStoreByte p x := by
  cases st with
  | key => exact .inl h
  | inBuf => exact .inr (.inl h)
  | outBuf => exact .inr (.inr h)

/-- Every byte of an access in a store's window is a byte of the store. -/
theorem inStore_of_inWindow {p : Params} {st : Store} {n x y : Nat} (h : inWindow p st n x = true)
    (hx : x ≤ y) (hy : y < x + n) : inStore p st y := by
  obtain ⟨hb, hc, -⟩ := (inWindow_iff p st n x).1 h
  constructor <;> omega

/-- With the parameters in their ranges no byte belongs to two stores (20_memory.md R62). -/
theorem inStore_unique {p : Params} (hp : p.wf) {st st' : Store} {x : Nat} (h : inStore p st x)
    (h' : inStore p st' x) : st = st' := by
  obtain ⟨-, ⟨-, -, hkey⟩, ⟨-, hbuf⟩, -⟩ := hp
  obtain ⟨hlo, hhi⟩ := h
  obtain ⟨hlo', hhi'⟩ := h'
  by_contra hne
  cases st <;> cases st' <;>
    simp only [storeBase, storeCap, keyBase, inBase, outBase, not_true_eq_false] at hne hlo hhi hlo' hhi' <;>
    omega

/-! ## Host reads -/

/-- A read writes nothing but its response and the count of draws (20_memory.md R75). -/
theorem hostRead_effect (addr : Word) (size : Size) (s : State) :
    ∃ r d, hostRead addr size s = { s with resp := r, draws := d } := by
  rcases hostRead_cases addr size s with ⟨-, h⟩ | ⟨t, -, h⟩
  · exact ⟨_, _, h⟩
  · exact ⟨_, _, h⟩

@[simp] theorem readReg_withAgenda (r : Reg) (es : List Event) (s : State) :
    readReg r (withAgenda es s) = readReg r s := by cases r <;> rfl

/-- A word read of a register returns what the register reads as (10_state.md R23). -/
theorem step_read_reg {s : State} {addr : Word} {es : List Event} (r : Reg)
    (ha : addr.toNat = r.offset) (h : s.agenda = .read addr .four :: es) :
    step s = .next (respond (.read .ok (readReg r s)) (nextDraw (withAgenda es s))) := by
  have ht : target s.params Size.four.bytes addr.toNat = some (.reg r) :=
    target_reg (regAt_eq_some_iff.2 ha) _
  rw [step_read h]
  simp only [hostRead, withAgenda_params, ht, readTarget, readReg_withAgenda]

/-! ## Host writes -/

/-- A write has no effect, or is dropped with OVR set, or is performed on a target that is not read-only,
and on a frozen one only while idle (20_memory.md R73). -/
theorem hostWrite_effect (addr : Word) (size : Size) (wdata : Word) (s : State) :
    (∃ r, hostWrite addr size wdata s = respond r s) ∨
    (∃ r, hostWrite addr size wdata s = respond r (overrun s)) ∨
    (∃ t, target s.params size.bytes addr.toNat = some t ∧ readOnly t = false ∧
      (frozen t = false ∨ s.busy = false) ∧
      hostWrite addr size wdata s = respond (.write .ok) (writeTarget t size.bytes wdata s)) := by
  rcases hostWrite_cases addr size wdata s with
    ⟨-, h⟩ | ⟨t, ht, ⟨-, h⟩ | ⟨-, -, -, h⟩ | ⟨hr, hf, h⟩⟩
  · exact .inl ⟨_, h⟩
  · exact .inl ⟨_, h⟩
  · exact .inr (.inl ⟨_, h⟩)
  · exact .inr (.inr ⟨t, ht, hr, hf, h⟩)

/-- A word write to a register that takes it (20_memory.md R73, case 5). -/
theorem step_write_reg {s : State} {addr wdata : Word} {es : List Event} (r : Reg)
    (ha : addr.toNat = r.offset) (hr : readOnly (.reg r) = false)
    (hf : frozen (.reg r) = false ∨ s.busy = false) (h : s.agenda = .write addr .four wdata :: es) :
    step s =
      .next (respond (.write .ok) (writeTarget (.reg r) 4 wdata (withAgenda es s))) := by
  have ht : target s.params Size.four.bytes addr.toNat = some (.reg r) :=
    target_reg (regAt_eq_some_iff.2 ha) _
  have hdrop : (frozen (.reg r) && s.busy) = false := by
    rcases hf with hf | hf <;> simp [hf]
  rw [step_write h]
  simp only [hostWrite, withAgenda_params, ht, hr, withAgenda_busy, hdrop, Bool.false_eq_true,
    if_false]
  rfl

/-- A write whose target, if it has one, is read-only gets an ERROR and changes nothing (20_memory.md
R67, R70). -/
theorem step_write_refused {s : State} {addr wdata : Word} {size : Size} {es : List Event}
    (ht : ∀ t, target s.params size.bytes addr.toNat = some t → readOnly t = true)
    (h : s.agenda = .write addr size wdata :: es) :
    step s = .next { s with agenda := es, resp := some (.write .error) } := by
  rw [step_write h]
  rcases hostWrite_cases addr size wdata (withAgenda es s) with
    ⟨-, he⟩ | ⟨t, htgt, ⟨-, he⟩ | ⟨hr, -⟩ | ⟨hr, -⟩⟩
  · rw [he]; rfl
  · rw [he]; rfl
  · rw [ht t htgt] at hr; cases hr
  · rw [ht t htgt] at hr; cases hr

/-- An access at the offset of a read-only register reaches that register or nothing (20_memory.md
R70). -/
theorem readOnly_of_target_reg {p : Params} {n x : Nat} {t : Target} {r : Reg} (hx : x = r.offset)
    (hr : readOnly (.reg r) = true) (h : target p n x = some t) : readOnly t = true := by
  have hreg := regAt_eq_some_iff.2 hx
  obtain ⟨-, ⟨r', hr', -, rfl⟩ | ⟨st, hnone, -, -⟩⟩ := target_some h
  · rw [hreg] at hr'
    cases hr'
    exact hr
  · rw [hreg] at hnone
    cases hnone

/-- An access at a byte of the OUT buffer reaches OUT or nothing (20_memory.md R70). -/
theorem readOnly_of_target_out {p : Params} (hp : p.wf) {n x : Nat} {t : Target}
    (hx : inStore p .outBuf x) (h : target p n x = some t) : readOnly t = true := by
  obtain ⟨hn, ⟨r, hr, -, -⟩ | ⟨st, -, hw, rfl⟩⟩ := target_some h
  · have hlow := regAt_lt (x := x) (by rw [hr]; rfl)
    obtain ⟨hlo, -⟩ := hx
    simp only [storeBase, outBase] at hlo
    omega
  · have hst : st = .outBuf :=
      inStore_unique hp (inStore_of_inWindow hw le_rfl (by omega)) hx
    rw [hst]
    rfl

/-! ## What a performed write leaves unchanged -/

/-- No host write is performed on OUT_LEN (20_memory.md R70). -/
@[simp] theorem writeTarget_outLen (t : Target) (n : Nat) (w : Word) (s : State) :
    (writeTarget t n w s).outLen = s.outLen := by
  cases t with
  | reg r => cases r <;> rfl
  | store st x => cases st <;> rfl

/-- The stores after a performed write: only KEY and IN are written (20_memory.md R70). -/
theorem writeTarget_mem (t : Target) (n : Nat) (w : Word) (s : State) :
    (writeTarget t n w s).mem = s.mem ∨
    (∃ st x, t = .store st x ∧ st ≠ .outBuf ∧
      (writeTarget t n w s).mem = Memory.writeBytes s.mem x (bytesOfWord n w)) := by
  cases t with
  | reg r => cases r <;> exact .inl rfl
  | store st x =>
    cases st with
    | key => exact .inr ⟨_, _, rfl, by decide, rfl⟩
    | inBuf => exact .inr ⟨_, _, rfl, by decide, rfl⟩
    | outBuf => exact .inl rfl

/-- No host write sets DONE (10_state.md R30). -/
theorem done_of_writeTarget_done {t : Target} {n : Nat} {w : Word} {s : State}
    (h : (writeTarget t n w s).done = true) : s.done = true := by
  cases t with
  | reg r =>
    cases r with
    | cmd => cases h
    | status => exact (Bool.and_eq_true_iff.1 h).1
    | _ => exact h
  | store st x => cases st <;> exact h

/-- `t` holds the operands that `s` does: the command word, the lengths and every store byte
(20_memory.md R72). -/
structure SameOperands (s t : State) : Prop where
  cmd : t.cmd = s.cmd
  inLen : t.inLen = s.inLen
  outLen : t.outLen = s.outLen
  keyLen : t.keyLen = s.keyLen
  mem : t.mem = s.mem

/-- A write to a target that is not frozen leaves the operands (20_memory.md R72). -/
theorem writeTarget_sameOperands {t : Target} (hf : frozen t = false) (n : Nat) (w : Word)
    (s : State) : SameOperands s (writeTarget t n w s) := by
  cases t with
  | reg r =>
    cases r with
    | cmd | inLen | keyLen => cases hf
    | _ => exact ⟨rfl, rfl, rfl, rfl, rfl⟩
  | store st x =>
    cases st with
    | key | inBuf => cases hf
    | outBuf => exact ⟨rfl, rfl, rfl, rfl, rfl⟩

/-! ## What a host write leaves unchanged -/

@[simp] theorem hostWrite_outLen (addr : Word) (size : Size) (wdata : Word) (s : State) :
    (hostWrite addr size wdata s).outLen = s.outLen := by
  rcases hostWrite_effect addr size wdata s with ⟨r, h⟩ | ⟨r, h⟩ | ⟨t, -, -, -, h⟩ <;> simp [h]

theorem done_of_hostWrite_done {addr : Word} {size : Size} {wdata : Word} {s : State}
    (hd : (hostWrite addr size wdata s).done = true) : s.done = true := by
  rcases hostWrite_effect addr size wdata s with ⟨r, h⟩ | ⟨r, h⟩ | ⟨t, -, -, -, h⟩ <;> rw [h] at hd
  · exact hd
  · exact hd
  · exact done_of_writeTarget_done hd

/-- While a command is in flight a host write leaves the operands (20_memory.md R72, R80). -/
theorem hostWrite_sameOperands {s : State} (hb : s.busy = true) (addr : Word) (size : Size)
    (wdata : Word) : SameOperands s (hostWrite addr size wdata s) := by
  rcases hostWrite_effect addr size wdata s with ⟨r, h⟩ | ⟨r, h⟩ | ⟨t, -, -, hf, h⟩ <;> rw [h]
  · exact ⟨rfl, rfl, rfl, rfl, rfl⟩
  · exact ⟨rfl, rfl, rfl, rfl, rfl⟩
  · obtain ⟨hc, hi, ho, hk, hm⟩ :=
      writeTarget_sameOperands (hf.resolve_right (by simp [hb])) size.bytes wdata s
    exact ⟨hc, hi, ho, hk, hm⟩

/-- The stores after a host write: only bytes of KEY or IN are written (20_memory.md R70). -/
theorem hostWrite_mem (addr : Word) (size : Size) (wdata : Word) (s : State) :
    (hostWrite addr size wdata s).mem = s.mem ∨
    (∃ st, st ≠ .outBuf ∧ inWindow s.params st size.bytes addr.toNat = true ∧
      (hostWrite addr size wdata s).mem =
        Memory.writeBytes s.mem addr.toNat (bytesOfWord size.bytes wdata)) := by
  rcases hostWrite_effect addr size wdata s with ⟨r, h⟩ | ⟨r, h⟩ | ⟨t, ht, -, -, h⟩ <;> rw [h]
  · exact .inl rfl
  · exact .inl rfl
  · rcases writeTarget_mem t size.bytes wdata s with hm | ⟨st, x, rfl, hst, hm⟩
    · exact .inl hm
    · obtain ⟨rfl, hw⟩ := target_eq_store ht
      exact .inr ⟨st, hst, hw, hm⟩

/-- A host write changes no byte of the OUT buffer (10_state.md R40, 20_memory.md R70). -/
theorem read_hostWrite_out {s : State} (hp : s.params.wf) {x : Nat} (hx : inStore s.params .outBuf x)
    (addr : Word) (size : Size) (wdata : Word) :
    Memory.read (hostWrite addr size wdata s).mem x = Memory.read s.mem x := by
  rcases hostWrite_mem addr size wdata s with hm | ⟨st, hst, hw, hm⟩ <;> rw [hm]
  refine Memory.read_writeBytes_outside ?_ _
  rw [bytesOfWord_length]
  by_contra hin
  exact hst (inStore_unique hp (inStore_of_inWindow hw (by omega) (by omega)) hx)

/-- A completion writes no byte below the OUT buffer (40_command_lifecycle.md R115, R116). -/
theorem read_complete_below_out {x : Nat} (hx : x < outBase) (r : Result) (s : State) :
    Memory.read (complete r s).mem x = Memory.read s.mem x := by
  cases r with
  | ok d => exact Memory.read_writeBytes_outside (.inl hx) _
  | err e => rfl

/-! ## The invariant -/

/-- The invariant rests on the parameters, the stores, OUT_LEN, BUSY, DONE and ERRCODE alone, and holds
on when DONE is cleared. -/
theorem Invariant.congr {s t : State} (hi : Invariant s) (hp : t.params = s.params)
    (hm : t.mem = s.mem) (ho : t.outLen = s.outLen) (hb : t.busy = s.busy)
    (hd : t.done = true → s.done = true) (he : t.errcode = s.errcode) : Invariant t where
  params_wf := hp ▸ hi.params_wf
  mem_wf := hm ▸ hi.mem_wf
  mem_mapped := by rw [hm, hp]; exact hi.mem_mapped
  outLen_le := by rw [ho, hp]; exact hi.outLen_le
  not_busy_and_done := fun ⟨h1, h2⟩ => hi.not_busy_and_done ⟨hb ▸ h1, hd h2⟩
  errcode_le := he ▸ hi.errcode_le
  busy_errcode := by rw [hb, he]; exact hi.busy_errcode

/-- Writing bytes that all exist keeps every entry of the stores at a mapped offset (20_memory.md
R62). -/
theorem writeBytes_mapped {p : Params} {m : Memory} (hm : ∀ c ∈ m, isStoreByte p c.1) {x : Nat}
    {d : Bytes} (hd : ∀ y, x ≤ y → y < x + d.length → isStoreByte p y) :
    ∀ c ∈ Memory.writeBytes m x d, isStoreByte p c.1 := by
  intro c hc
  rcases Memory.mem_writeBytes d hc with hc | ⟨hlo, hhi⟩
  · exact hm c hc
  · exact hd c.1 hlo hhi

theorem resetWith_invariant {p : Params} (hp : p.wf) : Invariant (State.resetWith p) where
  params_wf := hp
  mem_wf := resetWith_mem_wf p
  mem_mapped := by simp
  outLen_le := by simp
  not_busy_and_done := by simp
  errcode_le := by simp
  busy_errcode := by simp

theorem assertReset_keeps_invariant {s : State} (hi : Invariant s) : Invariant (assertReset s) :=
  (resetWith_invariant hi.params_wf).congr rfl rfl rfl rfl id rfl

theorem withAgenda_keeps_invariant {s : State} (hi : Invariant s) (es : List Event) :
    Invariant (withAgenda es s) :=
  hi.congr rfl rfl rfl rfl id rfl

theorem accept_keeps_invariant {s : State} (hi : Invariant s) (w : Word) : Invariant (accept w s) where
  params_wf := hi.params_wf
  mem_wf := hi.mem_wf
  mem_mapped := hi.mem_mapped
  outLen_le := hi.outLen_le
  not_busy_and_done := by simp
  errcode_le := by simp
  busy_errcode := fun _ => rfl

/-- A completion whose result fits the OUT buffer keeps the invariant (10_state.md R46). -/
theorem complete_keeps_invariant {s : State} (hi : Invariant s) {r : Result}
    (hfit : ∀ d, r = .ok d → d.length ≤ s.params.bufCap) : Invariant (complete r s) := by
  cases r with
  | err e =>
    exact ⟨hi.params_wf, hi.mem_wf, hi.mem_mapped, hi.outLen_le, by simp, errorCodeOf_le e, by simp⟩
  | ok d =>
    have hd : d.length ≤ s.params.bufCap := hfit d rfl
    exact
      { params_wf := hi.params_wf
        mem_wf := Memory.writeBytes_wf d hi.mem_wf outBase
        mem_mapped := writeBytes_mapped hi.mem_mapped fun y hlo hhi => .inr (.inr ⟨hlo, by omega⟩)
        outLen_le := (Nat.mod_le _ _).trans hd
        not_busy_and_done := by simp
        errcode_le := by simp
        busy_errcode := by simp }

/-- A host read keeps the invariant (20_memory.md R75). -/
theorem hostRead_keeps_invariant {s : State} (hi : Invariant s) (addr : Word) (size : Size) :
    Invariant (hostRead addr size s) := by
  obtain ⟨r, d, h⟩ := hostRead_effect addr size s
  rw [h]
  exact hi.congr rfl rfl rfl rfl id rfl

/-- A store write inside the store's window keeps the invariant (20_memory.md R65). -/
theorem writeStore_keeps_invariant {s : State} (hi : Invariant s) {st : Store} {n x : Nat}
    (hw : inWindow s.params st n x = true) (w : Word) : Invariant (writeStore x n w s) where
  params_wf := hi.params_wf
  mem_wf := Memory.writeBytes_wf _ hi.mem_wf x
  mem_mapped := writeBytes_mapped hi.mem_mapped fun y hlo hhi =>
    isStoreByte_of_inStore (inStore_of_inWindow hw hlo (by simpa using hhi))
  outLen_le := hi.outLen_le
  not_busy_and_done := hi.not_busy_and_done
  errcode_le := hi.errcode_le
  busy_errcode := hi.busy_errcode

/-- Writing the target of an access keeps the invariant. -/
theorem writeTarget_keeps_invariant {s : State} (hi : Invariant s) {t : Target} {n x : Nat}
    (ht : target s.params n x = some t) (w : Word) : Invariant (writeTarget t n w s) := by
  cases t with
  | reg r =>
    cases r with
    | cmd => exact accept_keeps_invariant hi w
    | status => exact hi.congr rfl rfl rfl rfl done_of_writeTarget_done rfl
    | _ => exact hi.congr rfl rfl rfl rfl id rfl
  | store st y =>
    obtain ⟨rfl, hw⟩ := target_eq_store ht
    cases st with
    | key => exact writeStore_keeps_invariant hi hw w
    | inBuf => exact writeStore_keeps_invariant hi hw w
    | outBuf => exact hi

/-- A host write keeps the invariant. -/
theorem hostWrite_keeps_invariant {s : State} (hi : Invariant s) (addr : Word) (size : Size)
    (wdata : Word) : Invariant (hostWrite addr size wdata s) := by
  rcases hostWrite_effect addr size wdata s with ⟨r, h⟩ | ⟨r, h⟩ | ⟨t, ht, -, -, h⟩ <;> rw [h]
  · exact hi.congr rfl rfl rfl rfl id rfl
  · exact hi.congr rfl rfl rfl rfl id rfl
  · exact (writeTarget_keeps_invariant hi ht wdata).congr rfl rfl rfl rfl id rfl

/-- Settles O50, by the kind of step: a completion (`complete_keeps_invariant`, whose result fits by
`wordResult_fits`), an idle turn, a host access or a reset. -/
theorem stepKeepsTheInvariant : Obligations.StepKeepsTheInvariant := by
  intro s t hi h
  have hiw := withAgenda_keeps_invariant hi
  rcases step_cases h with ⟨es, -, -, rfl⟩ | ⟨es, -, -, rfl⟩ | ⟨addr, size, es, -, rfl⟩ |
    ⟨addr, size, wdata, es, -, rfl⟩ | ⟨es, -, rfl⟩
  · exact complete_keeps_invariant (hiw es) fun d hd => wordResult_fits hd
  · exact hiw es
  · exact hostRead_keeps_invariant (hiw es) addr size
  · exact hostWrite_keeps_invariant (hiw es) addr size wdata
  · exact assertReset_keeps_invariant (hiw es)

/-- Settles O49: test configuration T1 is one of the configurations with parameters in range. -/
theorem invariantHoldsAfterReset : Obligations.InvariantHoldsAfterReset :=
  ⟨resetWith_invariant (by decide), fun _ hp => resetWith_invariant hp⟩

/-- What every step keeps holds after any number of steps. -/
theorem run_keeps {P : State → Prop} (hstep : ∀ s t, P s → step s = .next t → P t) {n : Nat}
    {s t : State} (hs : P s) (h : Host.Core.run core n s = .next t) : P t := by
  induction n generalizing s with
  | zero =>
    cases h
    exact hs
  | succ n ih =>
    obtain ⟨u, hu⟩ := step_total s
    have hrun : Host.Core.run core (n + 1) s = Host.Core.run core n u := by
      have hcore : core.step s = .next u := hu
      simp only [Host.Core.run, hcore]
    exact ih (hstep s u hs hu) (hrun ▸ h)

/-- Settles O51: the invariant bounds OUT_LEN in every state reached from reset, and no step changes the
parameters. -/
theorem outLenNeverExceedsCapacity : Obligations.OutLenNeverExceedsCapacity := by
  intro p l n t hp h
  have hi : Invariant t :=
    run_keeps stepKeepsTheInvariant (withAgenda_keeps_invariant (resetWith_invariant hp) l) h
  have hparams : t.params = p :=
    run_keeps (P := fun s => s.params = p) (fun _ _ hs hstep => (step_params hstep).trans hs) rfl h
  exact hparams ▸ hi.outLen_le

/-! ## The registers -/

/-- Settles O34: at such an offset a write reaches a read-only target or none. -/
theorem readOnlyTargetsRefuseWrites : Obligations.ReadOnlyTargetsRefuseWrites := by
  intro s addr wdata size es hp haddr h
  refine step_write_refused (fun t ht => ?_) h
  rcases haddr with hreg | hout
  · simp only [List.mem_cons, List.not_mem_nil, or_false] at hreg
    rcases hreg with hx | hx | hx | hx
    · exact readOnly_of_target_reg (r := .id) hx rfl ht
    · exact readOnly_of_target_reg (r := .cfg) hx rfl ht
    · exact readOnly_of_target_reg (r := .bufcap) hx rfl ht
    · exact readOnly_of_target_reg (r := .outLen) hx rfl ht
  · exact readOnly_of_target_out hp hout ht

/-- CFG as a number (10_state.md R25). -/
theorem cfgWord_toNat {p : Params} (hp : p.wf) :
    (cfgWord p).toNat = p.nb + 256 * p.nk + 65536 * p.keyCap := by
  obtain ⟨⟨-, hnb⟩, ⟨-, hnk, hcap⟩, -, -⟩ := hp
  simp only [cfgWord, toNat_join, BitVec.ofNat_eq_ofNat, BitVec.toNat_ofNat]
  omega

/-- BUFCAP as a number (10_state.md R26). -/
theorem bufcapWord_toNat {p : Params} (hp : p.wf) : (bufcapWord p).toNat = p.bufCap := by
  obtain ⟨-, -, ⟨-, hcap⟩, -⟩ := hp
  simp only [bufcapWord, BitVec.toNat_ofNat]
  omega

/-- Settles O44: the three read as the constants of the configuration (`step_read_reg`), and a word
written to one of them meets a read-only target (`step_write_refused`). -/
theorem constantRegistersReadTheConfiguration :
    Obligations.ConstantRegistersReadTheConfiguration := by
  intro s wdata es hp
  refine ⟨fun h => ⟨_, step_read_reg .id rfl h, rfl⟩,
    fun h => ⟨_, _, step_read_reg .cfg rfl h, rfl, cfgWord_toNat hp⟩,
    fun h => ⟨_, _, step_read_reg .bufcap rfl h, rfl, bufcapWord_toNat hp⟩, ?_⟩
  rintro (h | h | h)
  · exact step_write_refused (fun t => readOnly_of_target_reg (r := .id) rfl rfl) h
  · exact step_write_refused (fun t => readOnly_of_target_reg (r := .cfg) rfl rfl) h
  · exact step_write_refused (fun t => readOnly_of_target_reg (r := .bufcap) rfl rfl) h

/-- A bit of a word, by number. -/
theorem getLsbD_eq_decide (w : Word) (i : Nat) : w.getLsbD i = decide (w.toNat / 2 ^ i % 2 = 1) :=
  Nat.testBit_eq_decide_div_mod_eq

theorem flagBit_toNat (b : Bool) : (flagBit b).toNat = if b then 1 else 0 := by cases b <;> rfl

/-- A write to STATUS clears DONE and OVR where its bits 1 and 3 are 1 (10_state.md R34). -/
theorem writeStatus_eq (w : Word) (s : State) :
    writeStatus w s =
      { s with done := if w.toNat / 2 % 2 = 1 then false else s.done,
               ovr := if w.toNat / 8 % 2 = 1 then false else s.ovr } := by
  have clear (b : Bool) (i : Nat) :
      (b && !w.getLsbD i) = if w.toNat / 2 ^ i % 2 = 1 then false else b := by
    rw [getLsbD_eq_decide]
    split <;> simp [*]
  simp only [writeStatus, acknowledge, clear]
  rfl

/-- STATUS as a number (10_state.md R31, R34). -/
theorem statusWord_toNat (s : State) :
    (statusWord s).toNat = (if s.busy then 1 else 0) + (if s.done then 2 else 0) +
      (if s.errcode ≠ 0 then 4 else 0) + (if s.ovr then 8 else 0) + 256 * s.errcode.toNat := by
  have herr : (errFlag s = true) = (s.errcode ≠ 0) := by simp [errFlag]
  simp only [statusWord, toNat_join, flagBit_toNat, herr, BitVec.ofNat_eq_ofNat, BitVec.toNat_ofNat]
  split_ifs <;> omega

/-- Settles O46: STATUS is neither read-only nor frozen, so the write is performed (`writeStatus_eq`), and
a read returns `statusWord`. -/
theorem statusReadsTheFlagsAndClearsByOnes : Obligations.StatusReadsTheFlagsAndClearsByOnes := by
  intro s wdata es
  constructor
  · intro h
    rw [step_write_reg .status rfl rfl (.inl rfl) h]
    simp only [writeTarget, writeStatus_eq]
    rfl
  · intro h
    exact ⟨_, _, step_read_reg .status rfl h, rfl, statusWord_toNat s⟩

/-- A write to CTRL sets IE from bit 0 alone (10_state.md R27). -/
theorem writeCtrl_eq (w : Word) (s : State) :
    writeCtrl w s = { s with ie := decide (w.toNat % 2 = 1) } := by
  rw [writeCtrl, getLsbD_eq_decide, pow_zero, Nat.div_one]

/-- CTRL reads as IE, the reserved bits 0 (10_state.md R27, R43). -/
theorem ctrlWord_eq (s : State) : ctrlWord s = if s.ie then 1 else 0 := by
  cases h : s.ie <;> simp [ctrlWord, flagBit, h]

/-- Settles O45: CTRL is neither read-only nor frozen, so the write is performed (`writeCtrl_eq`), and a
read returns `ctrlWord`. -/
theorem ctrlHoldsOnlyTheInterruptEnable : Obligations.CtrlHoldsOnlyTheInterruptEnable := by
  intro s wdata es
  constructor
  · intro h
    rw [step_write_reg .ctrl rfl rfl (.inl rfl) h]
    simp only [writeTarget, writeCtrl_eq]
    rfl
  · intro h
    exact ⟨_, step_read_reg .ctrl rfl h, by rw [← ctrlWord_eq]; rfl⟩

/-- Settles O40: each is a register that reads as its field of the state. -/
theorem cmdAndLengthRegistersReadBack : Obligations.CmdAndLengthRegistersReadBack := by
  intro s es
  exact ⟨fun h => ⟨_, step_read_reg .cmd rfl h, rfl⟩, fun h => ⟨_, step_read_reg .outLen rfl h, rfl⟩,
    fun h => ⟨_, step_read_reg .inLen rfl h, rfl⟩, fun h => ⟨_, step_read_reg .keyLen rfl h, rfl⟩⟩

/-- Settles O36: the write is performed while idle, and the read then returns the register's field. -/
theorem lengthRegistersStoreAnyWord : Obligations.LengthRegistersStoreAnyWord := by
  intro s wdata es hidle
  exact ⟨fun h => ⟨_, _, step_write_reg .inLen rfl rfl (.inr hidle) h, rfl,
      step_read_reg .inLen rfl rfl, rfl⟩,
    fun h => ⟨_, _, step_write_reg .keyLen rfl rfl (.inr hidle) h, rfl,
      step_read_reg .keyLen rfl rfl, rfl⟩⟩

/-! ## Which steps change what -/

/-- Settles O55: a read, a write, a reset and an idle turn of the engine set DONE in no state. -/
theorem onlyCompletionSetsDone : Obligations.OnlyCompletionSetsDone := by
  intro s t h hs ht
  rcases step_cases h with ⟨es, hturn, hb, rfl⟩ | ⟨es, -, -, rfl⟩ | ⟨addr, size, es, -, rfl⟩ |
    ⟨addr, size, wdata, es, -, rfl⟩ | ⟨es, -, rfl⟩
  · exact ⟨hb, complete_busy _ _, es, hturn⟩
  · exact absurd (hs.symm.trans ht) (by decide)
  · obtain ⟨r, d, hr⟩ := hostRead_effect addr size (withAgenda es s)
    rw [hr] at ht
    exact absurd (hs.symm.trans ht) (by decide)
  · exact absurd (hs.symm.trans (done_of_hostWrite_done (s := withAgenda es s) ht)) (by decide)
  · cases ht

/-- A performed write raises `irq` only by setting IE while DONE is 1 (60_exceptions.md R215). -/
theorem writeTarget_raises_irq {t : Target} {n : Nat} {w : Word} {s : State} (hs : irq s = false)
    (h : irq (writeTarget t n w s) = true) :
    t = .reg .ctrl ∧ s.done = true ∧ w.getLsbD 0 = true := by
  cases t with
  | reg r =>
    cases r with
    | ctrl => exact ⟨rfl, Bool.and_eq_true_iff.1 h⟩
    | cmd => cases h
    | status =>
      obtain ⟨hdone, hie⟩ := Bool.and_eq_true_iff.1 h
      have hirq : irq s = true := by
        rw [irq, done_of_writeTarget_done (t := .reg .status) (n := n) hdone]; exact hie
      rw [hs] at hirq
      cases hirq
    | _ => exact absurd (hs.symm.trans h) (by decide)
  | store st x => cases st <;> exact absurd (hs.symm.trans h) (by decide)

/-- Settles O56: of the steps that set DONE or IE, a completion keeps IE, and a write sets IE at CTRL
alone. -/
theorem irqRisesOnlyByCompletionOrEnable : Obligations.IrqRisesOnlyByCompletionOrEnable := by
  intro s t h hs ht
  have same {P : Prop} (heq : irq s = true) : P := by rw [hs] at heq; cases heq
  rcases step_cases h with ⟨es, hturn, hb, rfl⟩ | ⟨es, -, -, rfl⟩ | ⟨addr, size, es, -, rfl⟩ |
    ⟨addr, size, wdata, es, ha, rfl⟩ | ⟨es, -, rfl⟩
  · have hie := (Bool.and_eq_true_iff.1 ht).2
    rw [complete_ie] at hie
    exact .inl ⟨hb, hie, es, hturn⟩
  · exact same ht
  · obtain ⟨r, d, hr⟩ := hostRead_effect addr size (withAgenda es s)
    rw [hr] at ht
    exact same ht
  · rcases hostWrite_effect addr size wdata (withAgenda es s) with
      ⟨r, hw⟩ | ⟨r, hw⟩ | ⟨tgt, htgt, -, -, hw⟩ <;> rw [hw] at ht
    · exact same ht
    · exact same ht
    · obtain ⟨rfl, hdone, hbit⟩ := writeTarget_raises_irq (s := withAgenda es s) hs ht
      obtain ⟨rfl, hx⟩ := target_eq_reg htgt
      have haddr : addr = 0x010 := BitVec.eq_of_toNat_eq hx
      rw [getLsbD_eq_decide, decide_eq_true_eq, pow_zero, Nat.div_one] at hbit
      exact .inr ⟨hdone, wdata, es, haddr ▸ ha, hbit⟩
  · cases ht

/-- Settles O58: reads and idle turns change no store byte and no length, and a write none of OUT
(`hostWrite_outLen`, `read_hostWrite_out`). -/
theorem onlyCompletionAndResetChangeOut : Obligations.OnlyCompletionAndResetChangeOut := by
  intro s t hp h hchange
  have same {P : Prop} (ho : t.outLen = s.outLen)
      (hm : ∀ x, inStore s.params .outBuf x → Memory.read t.mem x = Memory.read s.mem x) : P := by
    rcases hchange with hne | ⟨x, hlo, hhi, hne⟩
    · exact absurd ho hne
    · exact absurd (hm x ⟨hlo, hhi⟩) hne
  rcases step_cases h with ⟨es, hturn, hb, -⟩ | ⟨es, -, -, rfl⟩ | ⟨addr, size, es, -, rfl⟩ |
    ⟨addr, size, wdata, es, -, rfl⟩ | ⟨es, ha, -⟩
  · exact .inl ⟨hb, es, hturn⟩
  · exact same rfl fun _ _ => rfl
  · obtain ⟨r, d, hr⟩ := hostRead_effect addr size (withAgenda es s)
    rw [hr] at same
    exact same rfl fun _ _ => rfl
  · exact same (hostWrite_outLen ..) fun x hx =>
      read_hostWrite_out (s := withAgenda es s) hp hx addr size wdata
  · exact .inr ⟨es, ha⟩

/-- Settles O59: a completion writes neither length and no byte below OUT, reads and idle turns write
nothing, and a write while busy leaves the operands (`hostWrite_sameOperands`). -/
theorem onlyIdleWritesAndResetChangeKeyAndIn : Obligations.OnlyIdleWritesAndResetChangeKeyAndIn := by
  intro s t hp h hchange
  obtain ⟨-, ⟨-, -, hkey⟩, ⟨-, hbuf⟩, -⟩ := hp
  have same {P : Prop} (hi : t.inLen = s.inLen) (hk : t.keyLen = s.keyLen)
      (hm : ∀ x, x < outBase → Memory.read t.mem x = Memory.read s.mem x) : P := by
    rcases hchange with hne | hne | ⟨x, hx, hne⟩
    · exact absurd hi hne
    · exact absurd hk hne
    · have hlow : x < outBase := by
        simp only [keyBase, inBase] at hx
        simp only [outBase]
        omega
      exact absurd (hm x hlow) hne
  rcases step_cases h with ⟨es, -, -, rfl⟩ | ⟨es, -, -, rfl⟩ | ⟨addr, size, es, -, rfl⟩ |
    ⟨addr, size, wdata, es, ha, rfl⟩ | ⟨es, ha, -⟩
  · exact same (complete_inLen _ _) (complete_keyLen _ _) fun x hx => read_complete_below_out hx _ _
  · exact same rfl rfl fun _ _ => rfl
  · obtain ⟨r, d, hr⟩ := hostRead_effect addr size (withAgenda es s)
    rw [hr] at same
    exact same rfl rfl fun _ _ => rfl
  · cases hb : s.busy with
    | false => exact .inl ⟨rfl, addr, size, wdata, es, ha⟩
    | true =>
      obtain ⟨-, hi, -, hk, hm⟩ :=
        hostWrite_sameOperands (s := withAgenda es s) hb addr size wdata
      exact same hi hk fun x _ => by rw [hm]; rfl
  · exact .inr ⟨es, ha⟩

end Sys2Proof.Machine
end

section
/-! PROOFS. 20_memory.md: the host port. Which accesses are legal, what each of them does, and the byte
order of the stores. -/

namespace Sys2Proof.Machine

/-! ## Words and their bytes -/

/-- Byte `j` of a word, by number (20_memory.md R69). -/
theorem extractLsb'_byte (w : Word) (j : Nat) :
    w.extractLsb' (8 * j) 8 = BitVec.ofNat 8 (w.toNat / 256 ^ j) := by
  rw [BitVec.extractLsb', Nat.shiftRight_eq_div_pow, pow_mul]
  rfl

/-- The first byte is the least significant (20_memory.md R68). -/
theorem wordOfBytes_cons_toNat (v : Byte) {vs : Bytes} (h : (wordOfBytes vs).toNat < 256 ^ 3) :
    (wordOfBytes (v :: vs)).toNat = v.toNat + 256 * (wordOfBytes vs).toNat := by
  have hshift : (wordOfBytes vs).toNat <<< 8 % 2 ^ 32 = (wordOfBytes vs).toNat <<< 8 :=
    Nat.mod_eq_of_lt (by rw [Nat.shiftLeft_eq]; omega)
  rw [wordOfBytes, BitVec.toNat_or, BitVec.toNat_shiftLeft, hshift,
    BitVec.toNat_setWidth_of_le (by decide), ← Nat.shiftLeft_add_eq_or_of_lt v.isLt, Nat.shiftLeft_eq]
  omega

/-- Above its bytes the word is zero (20_memory.md R68). -/
theorem wordOfBytes_lt {d : Bytes} (h : d.length ≤ 4) : (wordOfBytes d).toNat < 256 ^ d.length := by
  induction d with
  | nil => decide
  | cons v vs ih =>
    have hlen : vs.length ≤ 3 := Nat.le_of_succ_le_succ h
    have hvs := ih (by omega)
    have hle : 256 ^ vs.length ≤ 256 ^ 3 := Nat.pow_le_pow_right (by decide) hlen
    have hv := v.isLt
    rw [wordOfBytes_cons_toNat v (by omega), List.length_cons, pow_succ]
    omega

/-- Byte `j` of the word of a byte sequence is the sequence's byte `j` (20_memory.md R68). -/
theorem wordOfBytes_byte {d : Bytes} (h : d.length ≤ 4) {j : Nat} {v : Byte} (hj : d[j]? = some v) :
    (wordOfBytes d).toNat / 256 ^ j % 256 = v.toNat := by
  induction d generalizing j with
  | nil => cases hj
  | cons u us ih =>
    have hlen : us.length ≤ 3 := Nat.le_of_succ_le_succ h
    have hus := (wordOfBytes_lt (by omega : us.length ≤ 4)).trans_le
      (Nat.pow_le_pow_right (by decide : 0 < 256) hlen)
    have hu := u.isLt
    rw [wordOfBytes_cons_toNat u hus]
    cases j with
    | zero =>
      cases hj
      omega
    | succ j =>
      have htail : (u.toNat + 256 * (wordOfBytes us).toNat) / 256 = (wordOfBytes us).toNat := by omega
      rw [pow_succ', ← Nat.div_div_eq_div_mul, htail]
      exact ih (by omega) hj

theorem bytesOfWord_wordOfBytes {d : Bytes} (h : d.length ≤ 4) :
    bytesOfWord d.length (wordOfBytes d) = d := by
  apply List.ext_getElem?
  intro j
  by_cases hj : j < d.length
  · have hbyte := wordOfBytes_byte h (List.getElem?_eq_getElem hj)
    rw [bytesOfWord_getElem? hj, List.getElem?_eq_getElem hj, extractLsb'_byte]
    exact congrArg some (BitVec.eq_of_toNat_eq hbyte)
  · rw [List.getElem?_eq_none (by simpa using hj), List.getElem?_eq_none (by omega)]

theorem wordOfBytes_bytesOfWord (w : Word) : wordOfBytes (bytesOfWord 4 w) = w := by
  have hw := w.isLt
  have hbyte {j : Nat} (hj : j < 4) := wordOfBytes_byte (d := bytesOfWord 4 w) (by simp)
    (bytesOfWord_getElem? hj w)
  have hlt := wordOfBytes_lt (d := bytesOfWord 4 w) (by simp)
  have h0 := hbyte (j := 0) (by decide)
  have h1 := hbyte (j := 1) (by decide)
  have h2 := hbyte (j := 2) (by decide)
  have h3 := hbyte (j := 3) (by decide)
  rw [bytesOfWord_length] at hlt
  simp only [extractLsb'_byte, BitVec.toNat_ofNat] at h0 h1 h2 h3
  exact BitVec.eq_of_toNat_eq (by omega)

/-- The word of one byte is the byte, zero above (20_memory.md R68). -/
theorem wordOfBytes_singleton (v : Byte) : wordOfBytes [v] = v.setWidth 32 := by simp [wordOfBytes]

/-- Bytes just written are held (20_memory.md R69). -/
theorem holds_writeBytes {s : State} {m : Memory} {x : Nat} {d : Bytes}
    (h : s.mem = Memory.writeBytes m x d) : holds s x d := by
  intro j hj
  rw [h, Memory.read_writeBytes_inside hj]

theorem holds_singleton {s : State} {x j : Nat} {d : Bytes} {v : Byte} (h : holds s x d)
    (hj : d[j]? = some v) : holds s (x + j) [v] := by
  intro i hi
  obtain rfl : i = 0 := by simpa using hi
  obtain ⟨hlt, -⟩ := List.getElem?_eq_some_iff.1 hj
  exact (h j hlt).trans hj

/-! ## The legal accesses -/

theorem Size.bytes_le (size : Size) : size.bytes ≤ 4 := by cases size <;> decide

/-- The sizes and alignments of the accesses to the bytes of a store (20_memory.md R63, R65). -/
abbrev byteOrAlignedWord (size : Size) (x : Nat) : Prop := size = .one ∨ (size = .four ∧ x % 4 = 0)

/-- Every byte of an access of this size at `x` is a byte of the store (20_memory.md R65). -/
abbrev accessInStore (p : Params) (st : Store) (size : Size) (x : Nat) : Prop :=
  storeBase st ≤ x ∧ x + size.bytes ≤ storeBase st + storeCap p st

/-- Alignment at the window's base is alignment at `BASE`: every window's base is a multiple of 4
(20_memory.md R62, R65). -/
theorem inWindow_iff_accessInStore {p : Params} {st : Store} {size : Size} {x : Nat} :
    (size.bytes = 1 ∨ size.bytes = 4) ∧ inWindow p st size.bytes x = true ↔
      byteOrAlignedWord size x ∧ accessInStore p st size x := by
  have hbase : storeBase st % 4 = 0 := by cases st <;> rfl
  rw [inWindow_iff]
  cases size with
  | one =>
    simp only [Size.bytes, OfNat.one_ne_ofNat, or_false, IsEmpty.forall_iff, and_true, true_and,
      byteOrAlignedWord, reduceCtorEq, false_and, accessInStore]
    omega
  | four =>
    simp only [Size.bytes, OfNat.ofNat_ne_one, or_true, forall_const, true_and, byteOrAlignedWord,
      reduceCtorEq, false_or, accessInStore]
    omega
  | two | three => simp [byteOrAlignedWord, Size.bytes]

/-- An access inside a window reaches a store; where windows meet it is the first of KEY, IN and OUT, so
not a read-only one unless the window is OUT's (20_memory.md R62). -/
theorem target_of_inWindow {p : Params} {st : Store} {n x : Nat} (hn : n = 1 ∨ n = 4)
    (h : inWindow p st n x = true) :
    ∃ st', target p n x = some (.store st' x) ∧
      (readOnly (.store st x) = false → readOnly (.store st' x) = false) := by
  have hreg : regAt x = none := by
    have hlo := ((inWindow_iff p st n x).1 h).1
    by_contra hne
    have hlow := regAt_lt (Option.isSome_iff_ne_none.2 hne)
    cases st <;> simp only [storeBase, keyBase, inBase, outBase] at hlo <;> omega
  have hsize : ¬(n ≠ 1 ∧ n ≠ 4) := by omega
  simp only [target, hsize, hreg, Option.isSome_none, Bool.false_eq_true, if_false]
  split_ifs with hkey hin hout
  · exact ⟨.key, rfl, fun _ => rfl⟩
  · exact ⟨.inBuf, rfl, fun _ => rfl⟩
  · cases st with
    | key => exact absurd h hkey
    | inBuf => exact absurd h hin
    | outBuf => exact ⟨.outBuf, rfl, id⟩
  · cases st <;> contradiction

/-- A target that a host access is legal for: any target for a read, one that is not read-only for a
write (20_memory.md R70). -/
abbrev allows (isWrite : Bool) (t : Target) : Prop := isWrite = true → readOnly t = false

/-- The legal accesses: a word at a register, or a byte or an aligned word inside a window, not
read-only if it is a write (20_memory.md R62 to R66, R70). -/
theorem exists_target_iff {p : Params} {size : Size} {x : Nat} (isWrite : Bool) :
    (∃ t, target p size.bytes x = some t ∧ allows isWrite t) ↔
      (size = .four ∧ ∃ r : Reg, x = r.offset ∧ allows isWrite (.reg r)) ∨
        (byteOrAlignedWord size x ∧
          ∃ st, accessInStore p st size x ∧ allows isWrite (.store st x)) := by
  constructor
  · rintro ⟨t, ht, hro⟩
    cases t with
    | reg r =>
      obtain ⟨hsize, hx⟩ := target_eq_reg ht
      exact .inl ⟨hsize, r, hx, hro⟩
    | store st y =>
      obtain ⟨rfl, hw⟩ := target_eq_store ht
      obtain ⟨halign, hin⟩ := inWindow_iff_accessInStore.1 ⟨(target_some ht).1, hw⟩
      exact .inr ⟨halign, st, hin, hro⟩
  · rintro (⟨rfl, r, hx, hro⟩ | ⟨halign, st, hin, hro⟩)
    · exact ⟨_, target_reg (regAt_eq_some_iff.2 hx) p, hro⟩
    · obtain ⟨hn, hw⟩ := inWindow_iff_accessInStore.2 ⟨halign, hin⟩
      obtain ⟨st', ht, hst'⟩ := target_of_inWindow hn hw
      exact ⟨_, ht, fun hwrite => hst' (hro hwrite)⟩

/-- The offsets of the registers a read or a write may address (10_state.md R23, 20_memory.md R70). -/
theorem exists_readable_reg_iff {x : Nat} :
    (∃ r : Reg, x = r.offset ∧ allows false (.reg r)) ↔
      x ∈ [0x000, 0x004, 0x008, 0x010, 0x014, 0x018, 0x01C, 0x020, 0x024] := by
  simp only [List.mem_cons, List.not_mem_nil, or_false]
  constructor
  · rintro ⟨r, rfl, -⟩
    cases r <;> simp [Reg.offset]
  · rintro (h | h | h | h | h | h | h | h | h)
    exacts [⟨.id, h, nofun⟩, ⟨.cfg, h, nofun⟩, ⟨.bufcap, h, nofun⟩, ⟨.ctrl, h, nofun⟩,
      ⟨.cmd, h, nofun⟩, ⟨.status, h, nofun⟩, ⟨.inLen, h, nofun⟩, ⟨.outLen, h, nofun⟩,
      ⟨.keyLen, h, nofun⟩]

theorem exists_writable_reg_iff {x : Nat} :
    (∃ r : Reg, x = r.offset ∧ allows true (.reg r)) ↔ x ∈ [0x010, 0x014, 0x018, 0x01C, 0x024] := by
  simp only [List.mem_cons, List.not_mem_nil, or_false]
  constructor
  · rintro ⟨r, rfl, hro⟩
    cases r with
    | id | cfg | bufcap | outLen => cases hro rfl
    | _ => simp [Reg.offset]
  · rintro (h | h | h | h | h)
    exacts [⟨.ctrl, h, fun _ => rfl⟩, ⟨.cmd, h, fun _ => rfl⟩, ⟨.status, h, fun _ => rfl⟩,
      ⟨.inLen, h, fun _ => rfl⟩, ⟨.keyLen, h, fun _ => rfl⟩]

/-- The windows a read may address (20_memory.md R62). -/
theorem exists_readable_store_iff {p : Params} {size : Size} {x : Nat} :
    (∃ st, accessInStore p st size x ∧ allows false (.store st x)) ↔
      accessInStore p .key size x ∨ accessInStore p .inBuf size x ∨ accessInStore p .outBuf size x := by
  constructor
  · rintro ⟨st, hin, -⟩
    cases st with
    | key => exact .inl hin
    | inBuf => exact .inr (.inl hin)
    | outBuf => exact .inr (.inr hin)
  · rintro (hin | hin | hin)
    exacts [⟨_, hin, nofun⟩, ⟨_, hin, nofun⟩, ⟨_, hin, nofun⟩]

/-- The windows a write may address (20_memory.md R62, R70). -/
theorem exists_writable_store_iff {p : Params} {size : Size} {x : Nat} :
    (∃ st, accessInStore p st size x ∧ allows true (.store st x)) ↔
      accessInStore p .key size x ∨ accessInStore p .inBuf size x := by
  constructor
  · rintro ⟨st, hin, hro⟩
    cases st with
    | key => exact .inl hin
    | inBuf => exact .inr hin
    | outBuf => cases hro rfl
  · rintro (hin | hin)
    exacts [⟨_, hin, fun _ => rfl⟩, ⟨_, hin, fun _ => rfl⟩]

/-- An access in a store's window reaches that store, the parameters being in their ranges (20_memory.md
R62). -/
theorem target_of_accessInStore {p : Params} (hp : p.wf) {st : Store} {size : Size} {x : Nat}
    (halign : byteOrAlignedWord size x) (hin : accessInStore p st size x) :
    target p size.bytes x = some (.store st x) := by
  obtain ⟨hn, hw⟩ := inWindow_iff_accessInStore.2 ⟨halign, hin⟩
  exact target_store hp hn hw

/-- With the parameters in their ranges every window ends below `2^32` (20_memory.md R62). -/
theorem storeBase_add_storeCap_lt {p : Params} (hp : p.wf) (st : Store) :
    storeBase st + storeCap p st < 2 ^ 32 := by
  obtain ⟨-, ⟨-, -, hkey⟩, ⟨-, hbuf⟩, -⟩ := hp
  cases st <;> simp only [storeBase, storeCap, keyBase, inBase, outBase] <;> omega

/-! ## One access -/

/-- A read that reaches nothing gets an ERROR and changes nothing (20_memory.md R67). -/
theorem step_read_error {s : State} {addr : Word} {size : Size} {es : List Event}
    (ht : target s.params size.bytes addr.toNat = none) (h : s.agenda = .read addr size :: es) :
    step s = .next { s with agenda := es, resp := some (.read .error 0) } := by
  rw [step_read h]
  simp only [hostRead, withAgenda_params, ht]
  rfl

@[simp] theorem readTarget_withAgenda (t : Target) (n : Nat) (es : List Event) (s : State) :
    readTarget t n (withAgenda es s) = readTarget t n s := by
  cases t with
  | reg r => exact readReg_withAgenda r es s
  | store st x => cases st <;> rfl

/-- A legal read returns its target's data with OK and uses one draw (20_memory.md R73, R76). -/
theorem step_read_ok {s : State} {addr : Word} {size : Size} {es : List Event} {t : Target}
    (ht : target s.params size.bytes addr.toNat = some t) (h : s.agenda = .read addr size :: es) :
    step s = .next { s with agenda := es, resp := some (.read .ok (readTarget t size.bytes s)),
                            draws := s.draws + 1 } := by
  rw [step_read h]
  simp only [hostRead, withAgenda_params, ht, readTarget_withAgenda]
  rfl

/-- A write to a frozen target while busy is dropped, with OVR set (20_memory.md R72). -/
theorem step_write_dropped {s : State} {addr wdata : Word} {size : Size} {es : List Event} {t : Target}
    (ht : target s.params size.bytes addr.toNat = some t) (hro : readOnly t = false)
    (hf : frozen t = true) (hb : s.busy = true) (h : s.agenda = .write addr size wdata :: es) :
    step s = .next { s with ovr := true, agenda := es, resp := some (.write .ok) } := by
  have hdrop : (frozen t && s.busy) = true := by simp [hf, hb]
  rw [step_write h]
  simp only [hostWrite, withAgenda_params, ht, hro, withAgenda_busy, hdrop, Bool.false_eq_true,
    if_false, if_true]
  rfl

/-- A legal write to any target but a frozen one while busy is performed (20_memory.md R73). -/
theorem step_write_performed {s : State} {addr wdata : Word} {size : Size} {es : List Event}
    {t : Target} (ht : target s.params size.bytes addr.toNat = some t) (hro : readOnly t = false)
    (hf : frozen t = false ∨ s.busy = false) (h : s.agenda = .write addr size wdata :: es) :
    step s = .next (respond (.write .ok) (writeTarget t size.bytes wdata (withAgenda es s))) := by
  have hdrop : (frozen t && s.busy) = false := by rcases hf with hf | hf <;> simp [hf]
  rw [step_write h]
  simp only [hostWrite, withAgenda_params, ht, hro, withAgenda_busy, hdrop, Bool.false_eq_true,
    if_false]

/-- A legal write gets an OK response, performed or dropped (20_memory.md R72, R73). -/
theorem step_write_ok {s : State} {addr wdata : Word} {size : Size} {es : List Event} {t : Target}
    (ht : target s.params size.bytes addr.toNat = some t) (hro : readOnly t = false)
    (h : s.agenda = .write addr size wdata :: es) :
    ∃ u, step s = .next u ∧ u.resp = some (.write .ok) := by
  by_cases hdrop : frozen t = true ∧ s.busy = true
  · exact ⟨_, step_write_dropped ht hro hdrop.1 hdrop.2 h, rfl⟩
  · have hf : frozen t = false ∨ s.busy = false := by
      rw [not_and_or] at hdrop
      simpa using hdrop
    exact ⟨_, step_write_performed ht hro hf h, rfl⟩

/-- A write gets OK if it reaches a target that is not read-only, and otherwise an ERROR with no effect
(20_memory.md R67, R70, R73). -/
theorem step_write_ok_or_refused {s : State} {addr wdata : Word} {size : Size} {es : List Event}
    (h : s.agenda = .write addr size wdata :: es) :
    ((∃ t, target s.params size.bytes addr.toNat = some t ∧ allows true t) ∧
      ∃ u, step s = .next u ∧ u.resp = some (.write .ok)) ∨
    ((¬∃ t, target s.params size.bytes addr.toNat = some t ∧ allows true t) ∧
      step s = .next { s with agenda := es, resp := some (.write .error) }) := by
  by_cases hw : ∃ t, target s.params size.bytes addr.toNat = some t ∧ allows true t
  · obtain ⟨t, ht, hro⟩ := hw
    exact .inl ⟨⟨t, ht, hro⟩, step_write_ok ht (hro rfl) h⟩
  · refine .inr ⟨hw, step_write_refused (fun t ht => ?_) h⟩
    by_contra hne
    exact hw ⟨t, ht, fun _ => Bool.eq_false_of_not_eq_true hne⟩

/-- A write to KEY or IN while idle writes the low bytes of the data (20_memory.md R68, R69). -/
theorem step_write_store {s : State} (hp : s.params.wf) (hidle : s.busy = false) {addr wdata : Word}
    {size : Size} {es : List Event} {st : Store} (hst : st ≠ .outBuf)
    (halign : byteOrAlignedWord size addr.toNat) (hin : accessInStore s.params st size addr.toNat)
    (h : s.agenda = .write addr size wdata :: es) :
    step s = .next { s with mem := Memory.writeBytes s.mem addr.toNat (bytesOfWord size.bytes wdata),
                            agenda := es, resp := some (.write .ok) } := by
  have ht := target_of_accessInStore hp halign hin
  cases st with
  | key => exact step_write_performed ht rfl (.inr hidle) h
  | inBuf => exact step_write_performed ht rfl (.inr hidle) h
  | outBuf => exact absurd rfl hst

/-- A read of IN or OUT returns the bytes it addresses in little-endian order (20_memory.md R68, R69). -/
theorem step_read_store {s : State} (hp : s.params.wf) {addr : Word} {size : Size} {es : List Event}
    {st : Store} (hst : st ≠ .key) (halign : byteOrAlignedWord size addr.toNat)
    (hin : accessInStore s.params st size addr.toNat) (h : s.agenda = .read addr size :: es) :
    ∃ u, step s = .next u ∧
      u.resp = some (.read .ok (wordOfBytes (readBytes s addr.toNat size.bytes))) := by
  have ht := target_of_accessInStore hp halign hin
  cases st with
  | key => exact absurd rfl hst
  | inBuf => exact ⟨_, step_read_ok ht h, rfl⟩
  | outBuf => exact ⟨_, step_read_ok ht h, rfl⟩

/-- A read of bytes of IN or OUT that are all written returns their word (20_memory.md R68, R69). -/
theorem step_read_holds {s : State} (hp : s.params.wf) {addr : Word} {size : Size} {es : List Event}
    {st : Store} (hst : st ≠ .key) (halign : byteOrAlignedWord size addr.toNat)
    (hin : accessInStore s.params st size addr.toNat) {d : Bytes} (hlen : d.length = size.bytes)
    (hd : holds s addr.toNat d) (h : s.agenda = .read addr size :: es) :
    ∃ u, step s = .next u ∧ u.resp = some (.read .ok (wordOfBytes d)) := by
  have hread := step_read_store hp hst halign hin h
  rwa [← hlen, readBytes_of_holds hd] at hread

/-! ## Legal and illegal accesses -/

/-- Settles O31: a read gets OK exactly when it reaches a target, and `exists_target_iff` says which
do. -/
theorem legalReadsAreThoseOfTheMap : Obligations.LegalReadsAreThoseOfTheMap := by
  intro s addr size es h
  have hlegal := exists_target_iff (p := s.params) (size := size) (x := addr.toNat) false
  rw [exists_readable_reg_iff, exists_readable_store_iff] at hlegal
  cases ht : target s.params size.bytes addr.toNat with
  | none =>
    refine ⟨_, _, _, step_read_error ht h, rfl, nofun, fun hmap => ?_⟩
    obtain ⟨t, hsome, -⟩ := hlegal.2 hmap
    rw [ht] at hsome
    cases hsome
  | some t => exact ⟨_, _, _, step_read_ok ht h, rfl, fun _ => hlegal.1 ⟨t, ht, nofun⟩, fun _ => rfl⟩

/-- Settles O60: a write gets OK exactly when it reaches a target that is not read-only, and
`exists_target_iff` says which do. -/
theorem legalWritesAreThoseOfTheMap : Obligations.LegalWritesAreThoseOfTheMap := by
  intro s addr wdata size es h
  have hlegal := exists_target_iff (p := s.params) (size := size) (x := addr.toNat) true
  rw [exists_writable_reg_iff, exists_writable_store_iff] at hlegal
  rcases step_write_ok_or_refused h with ⟨hw, u, hu, hresp⟩ | ⟨hw, hu⟩
  · exact ⟨u, .ok, hu, hresp, ⟨fun _ => hlegal.1 hw, fun _ => rfl⟩, nofun⟩
  · exact ⟨_, .error, hu, rfl, ⟨nofun, fun hmap => absurd (hlegal.2 hmap) hw⟩, fun _ => rfl⟩

/-- Settles O33: a read gets ERROR only where it reaches nothing (`step_read_error`), and a write only
where it reaches nothing that takes it (`step_write_ok_or_refused`). -/
theorem errorResponseChangesNothing : Obligations.ErrorResponseChangesNothing := by
  intro s t addr wdata size es hstep
  constructor
  · intro h w hresp
    cases ht : target s.params size.bytes addr.toNat with
    | none =>
      rw [step_read_error ht h] at hstep
      cases hstep
      cases hresp
      exact ⟨rfl, rfl⟩
    | some tgt =>
      rw [step_read_ok ht h] at hstep
      cases hstep
      cases hresp
  · intro h hresp
    rcases step_write_ok_or_refused h with ⟨-, u, hu, hok⟩ | ⟨-, hu⟩
    · rw [hstep] at hu
      cases hu
      rw [hresp] at hok
      cases hok
    · rw [hstep] at hu
      cases hu
      rfl

/-- Settles O32: an access of 2 or 3 bytes reaches nothing. -/
theorem otherSizesGetError : Obligations.OtherSizesGetError := by
  intro s addr wdata size es hsize
  have hnone : target s.params size.bytes addr.toNat = none := by
    rcases hsize with rfl | rfl <;> rfl
  exact ⟨step_read_error hnone,
    step_write_refused fun t ht => by rw [hnone] at ht; cases ht⟩

/-- Settles O43, by `hostRead_effect`. -/
theorem readsHaveNoSideEffect : Obligations.ReadsHaveNoSideEffect := by
  intro s addr size es h
  obtain ⟨r, d, hread⟩ := hostRead_effect addr size (withAgenda es s)
  exact ⟨_, step_read h, by rw [hread]; rfl⟩

/-! ## Frozen targets -/

/-- Settles O35: a legal write to such an offset reaches a frozen target (`step_write_dropped`). -/
theorem frozenWriteWhileBusyIsDropped : Obligations.FrozenWriteWhileBusyIsDropped := by
  intro s addr wdata size es hp hb haddr h
  rcases haddr with ⟨rfl, hreg⟩ | ⟨halign, hkey | hin⟩
  · have reg (r : Reg) (hx : addr.toNat = r.offset) :
        target s.params Size.four.bytes addr.toNat = some (.reg r) :=
      target_reg (regAt_eq_some_iff.2 hx) _
    simp only [List.mem_cons, List.not_mem_nil, or_false] at hreg
    rcases hreg with hx | hx | hx
    · exact step_write_dropped (reg .cmd hx) rfl rfl hb h
    · exact step_write_dropped (reg .inLen hx) rfl rfl hb h
    · exact step_write_dropped (reg .keyLen hx) rfl rfl hb h
  · exact step_write_dropped (target_of_accessInStore (st := .key) hp halign hkey) rfl rfl hb h
  · exact step_write_dropped (target_of_accessInStore (st := .inBuf) hp halign hin) rfl rfl hb h

/-- Settles O57: the steps after which BUSY is still 1 are host accesses, and neither reads nor writes
(`hostWrite_sameOperands`) change an operand then. -/
theorem operandsAreFrozenWhileBusy : Obligations.OperandsAreFrozenWhileBusy := by
  intro s t hb h hbusy
  rcases step_cases h with ⟨es, -, -, rfl⟩ | ⟨es, -, hidle, -⟩ | ⟨addr, size, es, -, rfl⟩ |
    ⟨addr, size, wdata, es, -, rfl⟩ | ⟨es, -, rfl⟩
  · rw [complete_busy] at hbusy
    cases hbusy
  · rw [hb] at hidle
    cases hidle
  · obtain ⟨r, d, hr⟩ := hostRead_effect addr size (withAgenda es s)
    rw [hr]
    exact ⟨rfl, rfl, rfl, rfl, fun _ => rfl⟩
  · obtain ⟨hcmd, hinLen, houtLen, hkeyLen, hmem⟩ :=
      hostWrite_sameOperands (s := withAgenda es s) hb addr size wdata
    exact ⟨hcmd, hinLen, houtLen, hkeyLen, fun x => by rw [hmem]; rfl⟩
  · cases hbusy

/-! ## Reading and writing the stores -/

/-- Settles O37: the window reached is KEY's or IN's (`step_write_store`), and a read after the write
returns the bytes of the data inside it and the old ones outside. -/
theorem storeWritesAreLittleEndian : Obligations.StoreWritesAreLittleEndian := by
  intro s addr wdata size es hp hidle halign hin h
  have hstep : step s = .next
      { s with mem := Memory.writeBytes s.mem addr.toNat (bytesOfWord size.bytes wdata),
               agenda := es, resp := some (.write .ok) } := by
    rcases hin with hkey | hin
    · exact step_write_store (st := .key) hp hidle (by decide) halign hkey h
    · exact step_write_store (st := .inBuf) hp hidle (by decide) halign hin h
  refine ⟨_, hstep, rfl, fun j hj => ?_, fun x hx => ?_⟩
  · rw [Memory.read_writeBytes_inside (by simpa using hj), bytesOfWord_getElem? hj, extractLsb'_byte]
  · exact Memory.read_writeBytes_outside (by simpa using hx) _

/-- Settles O39: the data is the word of the bytes read (`step_read_store`), a written one of which is
read as what was written. -/
theorem bufferReadsAreLittleEndian : Obligations.BufferReadsAreLittleEndian := by
  intro s addr size es hp halign hin h
  have hlen : (readBytes s addr.toNat size.bytes).length ≤ 4 := by
    rw [readBytes_length]; exact size.bytes_le
  obtain ⟨t, hstep, hresp⟩ : ∃ t, step s = .next t ∧
      t.resp = some (.read .ok (wordOfBytes (readBytes s addr.toNat size.bytes))) := by
    rcases hin with hin | hout
    · exact step_read_store (st := .inBuf) hp (by decide) halign hin h
    · exact step_read_store (st := .outBuf) hp (by decide) halign hout h
  refine ⟨t, _, hstep, hresp, by simpa using wordOfBytes_lt hlen, fun j v hj hread => ?_⟩
  exact wordOfBytes_byte hlen (by rw [readBytes_getElem? hj, readByte_of_read hread])

/-- Settles O42: a read in the KEY window reaches KEY, which reads as 0. -/
theorem keyStoreReadsAsZero : Obligations.KeyStoreReadsAsZero := by
  intro s addr size es hp halign hlo hhi h
  exact ⟨_, step_read_ok (target_of_accessInStore (st := .key) hp halign ⟨hlo, hhi⟩) h, rfl⟩

/-- Settles O38: after the write IN holds the word's four bytes, of which a word read makes the word
(`wordOfBytes_bytesOfWord`) and a byte read one byte. -/
theorem wordWriteThenReadsOfIn : Obligations.WordWriteThenReadsOfIn := by
  intro s t addr wdata es hp hidle halign hlo hhi h hstep
  rw [step_write_store (st := .inBuf) hp hidle (by decide) (.inr ⟨rfl, halign⟩) ⟨hlo, hhi⟩ h] at hstep
  injection hstep with ht
  have hparams : t.params = s.params := by rw [← ht]
  rw [← hparams] at hp hhi
  have hholds : holds t addr.toNat (bytesOfWord 4 wdata) := holds_writeBytes (by rw [← ht]; rfl)
  constructor
  · obtain ⟨u, hu, hresp⟩ := step_read_holds (s := { t with agenda := [.read addr .four] }) hp
      (st := .inBuf) (by decide) (.inr ⟨rfl, halign⟩) ⟨hlo, hhi⟩ (bytesOfWord_length 4 wdata) hholds rfl
    exact ⟨u, hu, by rw [hresp, wordOfBytes_bytesOfWord]⟩
  · intro j hj
    have hend : 0x01000000 + t.params.bufCap < 2 ^ 32 := storeBase_add_storeCap_lt hp .inBuf
    have haddr : (addr + BitVec.ofNat 32 j).toNat = addr.toNat + j := by
      rw [BitVec.toNat_add, BitVec.toNat_ofNat]; omega
    have hbyte := holds_singleton hholds (bytesOfWord_getElem? hj wdata)
    rw [← haddr] at hbyte
    have hin : accessInStore t.params .inBuf .one (addr + BitVec.ofNat 32 j).toNat := by
      simp only [accessInStore, storeBase, storeCap, inBase, Size.bytes]; omega
    obtain ⟨u, hu, hresp⟩ :=
      step_read_holds (s := { t with agenda := [.read (addr + BitVec.ofNat 32 j) .one] }) hp
        (st := .inBuf) (by decide) (.inl rfl) hin rfl hbyte rfl
    refine ⟨u, hu, ?_⟩
    rw [hresp, wordOfBytes_singleton, extractLsb'_byte, ← BitVec.ofNat_toNat, BitVec.toNat_ofNat]

/-! ## Loading a message or a key -/

/-- The first of several steps. -/
theorem run_succ {s u : State} (h : step s = .next u) (n : Nat) :
    Host.Core.run core (n + 1) s = Host.Core.run core n u := by
  have hcore : core.step s = .next u := h
  simp only [Host.Core.run, hcore]

/-- A run goes on from where a shorter one ends. -/
theorem run_add {m : Nat} {s u : State} (h : Host.Core.run core m s = .next u) (n : Nat) :
    Host.Core.run core (m + n) s = Host.Core.run core n u := by
  induction m generalizing s with
  | zero =>
    cases h
    rw [Nat.zero_add]
  | succ m ih =>
    obtain ⟨v, hv⟩ := step_total s
    rw [run_succ hv] at h
    rw [Nat.succ_add, run_succ hv, ih h]

/-- `s` with the bytes `d` in its stores from offset `x` up, what is left of the schedule, and the response
of the last access. -/
def loaded (x : Nat) (d : Bytes) (es : List Event) (r : Option Response) (s : State) : State :=
  { s with mem := Memory.writeBytes s.mem x d, agenda := es, resp := r }

/-- One write of a load stores its bytes: a full word or a tail byte (30_encoding.md R101). -/
theorem step_write_wordOfBytes {s : State} (hp : s.params.wf) (hidle : s.busy = false) {x : Nat}
    {size : Size} {es : List Event} {st : Store} (hst : st ≠ .outBuf) {d : Bytes}
    (hlen : d.length = size.bytes) (halign : byteOrAlignedWord size x)
    (hin : accessInStore s.params st size x)
    (h : s.agenda = .write (BitVec.ofNat 32 x) size (wordOfBytes d) :: es) :
    step s = .next (loaded x d es (some (.write .ok)) s) := by
  have hend := storeBase_add_storeCap_lt hp st
  have hx : (BitVec.ofNat 32 x).toNat = x := by
    rw [BitVec.toNat_ofNat]
    exact Nat.mod_eq_of_lt (by omega)
  rw [← hx] at halign hin
  rw [step_write_store hp hidle hst halign hin h, hx, ← hlen,
    bytesOfWord_wordOfBytes (hlen ▸ size.bytes_le)]
  rfl

/-- The writes of a byte sequence store it: the full words are aligned, for the load begins at an aligned
offset, and a tail byte needs no alignment (30_encoding.md R101, 20_memory.md R65). -/
theorem run_storeBytes {st : Store} (hst : st ≠ .outBuf) {es : List Event} {x : Nat} {d : Bytes}
    {s : State} (hp : s.params.wf) (hidle : s.busy = false) (hlo : storeBase st ≤ x)
    (hhi : x + d.length ≤ storeBase st + storeCap s.params st) (halign : 4 ≤ d.length → x % 4 = 0)
    (h : s.agenda = storeBytes x d ++ es) :
    ∃ r, Host.Core.run core (storeBytes x d).length s = .next (loaded x d es r s) := by
  induction x, d using storeBytes.induct generalizing s with
  | case1 x a b c d vs ih =>
    simp only [List.length_cons] at hhi halign
    have hstep := step_write_wordOfBytes (d := [a, b, c, d]) hp hidle hst rfl
      (.inr ⟨rfl, halign (by omega)⟩) ⟨hlo, by simp only [Size.bytes]; omega⟩ h
    obtain ⟨r, hr⟩ := ih (s := loaded x [a, b, c, d] (storeBytes (x + 4) vs ++ es) _ s) hp hidle
      (by omega) (by simp only [loaded]; omega) (by omega) rfl
    exact ⟨r, (run_succ hstep _).trans hr⟩
  | case2 x v vs htail ih =>
    have hshort : vs.length < 3 := by
      match vs, htail with
      | [], _ | [_], _ | [_, _], _ => simp
      | b :: c :: d :: vs', hnot => exact (hnot b c d vs' rfl).elim
    simp only [List.length_cons] at hhi
    have hcons : storeBytes x (v :: vs) = wr8 x (wordOfBytes [v]) :: storeBytes (x + 1) vs := by
      rw [wordOfBytes_singleton]; simp [storeBytes]
    rw [hcons] at h ⊢
    have hstep := step_write_wordOfBytes (d := [v]) hp hidle hst rfl (.inl rfl)
      ⟨hlo, by simp only [Size.bytes]; omega⟩ h
    obtain ⟨r, hr⟩ := ih (s := loaded x [v] (storeBytes (x + 1) vs ++ es) _ s) hp hidle
      (by omega) (by simp only [loaded]; omega) (by omega) rfl
    exact ⟨r, (run_succ hstep _).trans hr⟩
  | case3 x => exact ⟨s.resp, by rw [loaded, ← show s.agenda = es from h]; rfl⟩

/-- Loading a store from its base, then writing the number of bytes to a register that takes it while
idle (30_encoding.md R101). -/
theorem run_load {st : Store} (hst : st ≠ .outBuf) (reg : Reg) (hreg : readOnly (.reg reg) = false)
    {d : Bytes} {es : List Event} {n : Word} {s : State} (hp : s.params.wf) (hidle : s.busy = false)
    (hfit : d.length ≤ storeCap s.params st)
    (h : s.agenda = (storeBytes (storeBase st) d ++ [wr32 reg.offset n]) ++ es) :
    ∃ r, Host.Core.run core (storeBytes (storeBase st) d ++ [wr32 reg.offset n]).length s =
      .next (respond (.write .ok) (writeTarget (.reg reg) 4 n (loaded (storeBase st) d es r s))) := by
  have hbase : storeBase st % 4 = 0 := by cases st <;> rfl
  rw [List.append_assoc] at h
  obtain ⟨r, hr⟩ := run_storeBytes hst hp hidle le_rfl (by omega) (fun _ => hbase) h
  have hx : (BitVec.ofNat 32 reg.offset).toNat = reg.offset := by cases reg <;> rfl
  have hlast := step_write_reg (s := loaded (storeBase st) d ([wr32 reg.offset n] ++ es) r s) reg hx hreg
    (.inr hidle) rfl
  rw [List.length_append, run_add hr]
  exact ⟨r, run_succ hlast 0⟩

/-- Settles O41: both are loads of a store and its length register (`run_load`). -/
theorem loadInAndLoadKeyStoreTheirBytes : Obligations.LoadInAndLoadKeyStoreTheirBytes := by
  intro s d es hp hidle
  constructor
  · intro hfit h
    obtain ⟨r, hr⟩ := run_load (st := .inBuf) (by decide) .inLen rfl hp hidle hfit h
    exact ⟨_, hr, rfl, holds_writeBytes rfl, fun x hx => Memory.read_writeBytes_outside hx _⟩
  · intro hfit h
    obtain ⟨r, hr⟩ := run_load (st := .key) (by decide) .keyLen rfl hp hidle hfit h
    exact ⟨_, hr, rfl, holds_writeBytes rfl, fun x hx => Memory.read_writeBytes_outside hx _⟩

end Sys2Proof.Machine
end

section
/-! PROOFS. 30_encoding.md: command words and instructions stand for each other, the opcode map, and the
completion of legal and of illegal words. -/

namespace Sys2Proof

/-! ## The fields of an instruction -/

/-- The `OP` of an instruction (30_encoding.md R92). -/
def Instr.op : Instr → BitVec 4
  | .pad _ _ => 1
  | .unpad _ _ => 2
  | .encrypt _ => 3
  | .decrypt _ => 4

/-- The source an instruction selects (30_encoding.md R93). -/
def Instr.src : Instr → Src
  | .pad src _ | .unpad src _ | .encrypt src | .decrypt src => src

/-- The `BS` of an instruction: ENCRYPT and DECRYPT have 0 there (30_encoding.md R94, R95). -/
def Instr.blockSize : Instr → Nat
  | .pad _ bs | .unpad _ bs => bs
  | .encrypt _ | .decrypt _ => 0

theorem Instr.wellFormed_iff (i : Instr) : i.wellFormed = true ↔ i.blockSize < 256 := by
  cases i <;> simp [Instr.wellFormed, Instr.blockSize, Nat.lt_succ_iff]

theorem Instr.blockSize_of_usesKey {i : Instr} (h : Machine.usesKey i = true) : i.blockSize = 0 := by
  cases i with
  | pad | unpad => cases h
  | encrypt | decrypt => rfl

/-- The fields of the word `w`, by number, are those of the instruction `i`, the reserved ones zero
(30_encoding.md R91). -/
structure HasFields (w : Word) (i : Instr) : Prop where
  rsv1 : w.toNat / 65536 = 0
  rsv0 : w.toNat / 32 % 8 = 0
  op : w.toNat % 16 = i.op.toNat
  src : srcField w = i.src
  blockSize : w.toNat / 256 % 256 = i.blockSize

theorem HasFields.wellFormed {w : Word} {i : Instr} (h : HasFields w i) : i.wellFormed = true := by
  rw [Instr.wellFormed_iff, ← h.blockSize]
  exact Nat.mod_lt _ (by decide)

/-- Bit 4 of a word is the bit of the source it selects (30_encoding.md R93). -/
theorem srcBit_srcField_toNat (w : Word) : (srcBit (srcField w)).toNat = w.toNat / 16 % 2 := by
  rw [srcField_eq]
  split
  · next h => rw [h]; rfl
  · next h => rw [Nat.mod_two_ne_one.1 h]; rfl

/-- The five fields are all of a word, so a word with an instruction's fields is that instruction's. -/
theorem HasFields.toNat_eq {w : Word} {i : Instr} (h : HasFields w i) :
    w.toNat = i.op.toNat + 16 * (srcBit i.src).toNat + 256 * i.blockSize := by
  obtain ⟨hrsv1, hrsv0, hop, hsrc, hbs⟩ := h
  rw [← hop, ← hsrc, srcBit_srcField_toNat, ← hbs]
  omega

/-- Every instruction's word is put together from its fields (30_encoding.md R99). -/
theorem encode_eq (i : Instr) : encode i = assembleWord i.op i.src (BitVec.ofNat 8 i.blockSize) := by
  cases i <;> rfl

theorem hasFields_encode {i : Instr} (h : i.wellFormed = true) : HasFields (encode i) i := by
  obtain ⟨hrsv1, hrsv0, hop, hsrc⟩ :=
    Laws.assembleWord_fields i.op i.src (BitVec.ofNat 8 i.blockSize)
  rw [← encode_eq] at hrsv1 hrsv0 hop hsrc
  refine ⟨hrsv1, hrsv0, hop, hsrc, ?_⟩
  have hbs := (Instr.wellFormed_iff i).1 h
  have hopLt := i.op.isLt
  have hsrcLt := (srcBit i.src).isLt
  rw [encode_eq, assembleWord_toNat, BitVec.toNat_ofNat]
  omega

/-! ## Decoding -/

/-- The decoder gives the instruction whose fields the word has (30_encoding.md R96). -/
theorem decode_eq_legal_iff {w : Word} {i : Instr} : decode w = .legal i ↔ HasFields w i := by
  rw [decode_eq]
  constructor
  · intro h
    split_ifs at h with hrsv hop hop hop hbs hop hbs <;> cases h <;>
      rw [not_or, not_not, not_not] at hrsv
    · exact ⟨hrsv.1, hrsv.2, hop, rfl, rfl⟩
    · exact ⟨hrsv.1, hrsv.2, hop, rfl, rfl⟩
    · exact ⟨hrsv.1, hrsv.2, hop, rfl, hbs⟩
    · exact ⟨hrsv.1, hrsv.2, hop, rfl, hbs⟩
  · rintro ⟨hrsv1, hrsv0, hop, hsrc, hbs⟩
    cases i <;> simp [hrsv1, hrsv0, hop, hsrc, hbs, Instr.op, Instr.src, Instr.blockSize]

/-- Settles O1: the word of a well-formed instruction has the instruction's fields. -/
theorem decodeOfEncodeIsTheInstruction : Obligations.DecodeOfEncodeIsTheInstruction :=
  fun _ h => decode_eq_legal_iff.2 (hasFields_encode h)

/-- Settles O2: the word and the word of its instruction have the same fields. -/
theorem encodeOfDecodeIsTheWord : Obligations.EncodeOfDecodeIsTheWord := by
  intro w i h
  have hw := decode_eq_legal_iff.1 h
  refine ⟨hw.wellFormed, BitVec.eq_of_toNat_eq ?_⟩
  rw [(hasFields_encode hw.wellFormed).toNat_eq, hw.toNat_eq]

/-- Settles O4: each word is read off the field table. -/
theorem sampleWordsDecodeAsWritten : Obligations.SampleWordsDecodeAsWritten := by
  unfold Obligations.SampleWordsDecodeAsWritten
  decide

/-! ## The opcode map -/

/-- The row of the opcode map of each instruction (30_encoding.md R99). -/
def Instr.row : Instr → OpcodeRow
  | .pad _ _ => ⟨"PAD", 0x00000001, 0xFFFF00EF⟩
  | .unpad _ _ => ⟨"UNPAD", 0x00000002, 0xFFFF00EF⟩
  | .encrypt _ => ⟨"ENCRYPT", 0x00000003, 0xFFFFFFEF⟩
  | .decrypt _ => ⟨"DECRYPT", 0x00000004, 0xFFFFFFEF⟩

theorem Instr.row_mnemonic (i : Instr) : i.row.mnemonic = i.mnemonic := by cases i <;> rfl

/-- The opcode map is the rows of the four instructions, whatever their operands. -/
theorem mem_opcodeRows {r : OpcodeRow} (h : r ∈ opcodeRows) : ∃ i : Instr, i.row = r := by
  simp only [opcodeRows, List.mem_cons, List.not_mem_nil, or_false] at h
  rcases h with rfl | rfl | rfl | rfl
  exacts [⟨.pad .inBuf 0, rfl⟩, ⟨.unpad .inBuf 0, rfl⟩, ⟨.encrypt .inBuf, rfl⟩,
    ⟨.decrypt .inBuf, rfl⟩]

/-- The rows differ, so an instruction's own row stands once in the map (30_encoding.md R98). -/
theorem filter_opcodeRows_row (i : Instr) : opcodeRows.filter (fun r => r = i.row) = [i.row] := by
  cases i <;> simp [opcodeRows, Instr.row]

/-- A word is its five fields, most significant first (30_encoding.md R91). -/
theorem word_eq_fields (w : Word) :
    w = rsv1Field w ++ w.extractLsb' 8 8 ++ rsv0Field w ++ w.extractLsb' 4 1 ++ opField w := by
  have hw := w.isLt
  apply BitVec.eq_of_toNat_eq
  simp only [toNat_join, rsv1Field_toNat, rsv0Field_toNat, opField_toNat, BitVec.extractLsb'_toNat,
    Nat.shiftRight_eq_div_pow]
  omega

/-- The mask that keeps `OP` and the reserved fields, drops `SRC` and masks `BS` by `m`, on a word in its
fields (30_encoding.md R99). -/
theorem fields_and_rowMask_toNat (rsv1 : BitVec 16) (bs : BitVec 8) (rsv0 : BitVec 3) (src : BitVec 1)
    (op : BitVec 4) (m : BitVec 8) :
    ((rsv1 ++ bs ++ rsv0 ++ src ++ op) &&&
        (BitVec.allOnes 16 ++ m ++ BitVec.allOnes 3 ++ (0 : BitVec 1) ++ BitVec.allOnes 4)).toNat =
      rsv1.toNat * 65536 + (bs &&& m).toNat * 256 + rsv0.toNat * 32 + op.toNat := by
  simp only [BitVec.and_append, BitVec.and_allOnes, toNat_join, BitVec.ofNat_eq_ofNat, BitVec.and_zero,
    BitVec.toNat_ofNat]
  omega

/-- What is left of a word under such a mask. -/
theorem and_rowMask_toNat (w : Word) (m : BitVec 8) :
    (w &&& (BitVec.allOnes 16 ++ m ++ BitVec.allOnes 3 ++ (0 : BitVec 1) ++ BitVec.allOnes 4)).toNat =
      w.toNat / 65536 * 65536 + (w.extractLsb' 8 8 &&& m).toNat * 256 + w.toNat / 32 % 8 * 32 +
        w.toNat % 16 := by
  conv_lhs => rw [word_eq_fields w]
  rw [← rsv1Field_toNat, ← rsv0Field_toNat, ← opField_toNat]
  exact fields_and_rowMask_toNat _ _ _ _ _ m

/-- The row of PAD or UNPAD fixes `OP` and the reserved fields (30_encoding.md R99). -/
theorem hit_anyBlockSize_iff (name : String) {p : Word} (hp : p.toNat < 16) (w : Word) :
    OpcodeRow.hit ⟨name, p, 0xFFFF00EF⟩ w = true ↔
      w.toNat / 65536 = 0 ∧ w.toNat / 32 % 8 = 0 ∧ w.toNat % 16 = p.toNat := by
  have hmask : (w &&& 0xFFFF00EF).toNat = _ := and_rowMask_toNat w 0#8
  rw [BitVec.and_zero, BitVec.toNat_ofNat] at hmask
  simp only [OpcodeRow.hit, beq_iff_eq, ← BitVec.toNat_inj, hmask]
  omega

/-- The row of ENCRYPT or DECRYPT fixes `BS` as well (30_encoding.md R99). -/
theorem hit_zeroBlockSize_iff (name : String) {p : Word} (hp : p.toNat < 16) (w : Word) :
    OpcodeRow.hit ⟨name, p, 0xFFFFFFEF⟩ w = true ↔
      w.toNat / 65536 = 0 ∧ w.toNat / 32 % 8 = 0 ∧ w.toNat % 16 = p.toNat ∧
        w.toNat / 256 % 256 = 0 := by
  have hmask : (w &&& 0xFFFFFFEF).toNat = _ := and_rowMask_toNat w (BitVec.allOnes 8)
  have hbs : (w.extractLsb' 8 8).toNat = w.toNat / 256 % 256 := bsField_eq w
  rw [BitVec.and_allOnes, hbs] at hmask
  simp only [OpcodeRow.hit, beq_iff_eq, ← BitVec.toNat_inj, hmask]
  omega

/-- The row of an instruction fixes `OP` and the reserved fields, and `BS` too for ENCRYPT and DECRYPT
(30_encoding.md R99). -/
theorem hit_row_iff_fields (i : Instr) (w : Word) :
    i.row.hit w = true ↔
      w.toNat / 65536 = 0 ∧ w.toNat / 32 % 8 = 0 ∧ w.toNat % 16 = i.op.toNat ∧
        (Machine.usesKey i = true → w.toNat / 256 % 256 = 0) := by
  cases i with
  | pad | unpad =>
    exact (hit_anyBlockSize_iff _ (by decide) w).trans (by simp [Machine.usesKey, Instr.op])
  | encrypt | decrypt =>
    exact (hit_zeroBlockSize_iff _ (by decide) w).trans (by simp [Machine.usesKey, Instr.op])

/-- A word matches an instruction's row exactly when it decodes to an instruction of that row
(30_encoding.md R99). -/
theorem hit_row_iff (i : Instr) (w : Word) :
    i.row.hit w = true ↔ ∃ j, decode w = .legal j ∧ j.row = i.row := by
  constructor
  · intro h
    obtain ⟨hrsv1, hrsv0, hop, hbs⟩ := (hit_row_iff_fields i w).1 h
    simp only [decode_eq_legal_iff]
    cases i with
    | pad => exact ⟨.pad (srcField w) _, ⟨hrsv1, hrsv0, hop, rfl, rfl⟩, rfl⟩
    | unpad => exact ⟨.unpad (srcField w) _, ⟨hrsv1, hrsv0, hop, rfl, rfl⟩, rfl⟩
    | encrypt => exact ⟨.encrypt (srcField w), ⟨hrsv1, hrsv0, hop, rfl, hbs rfl⟩, rfl⟩
    | decrypt => exact ⟨.decrypt (srcField w), ⟨hrsv1, hrsv0, hop, rfl, hbs rfl⟩, rfl⟩
  · rintro ⟨j, hd, hrow⟩
    have hj := decode_eq_legal_iff.1 hd
    rw [← hrow, hit_row_iff_fields]
    exact ⟨hj.rsv1, hj.rsv0, hj.op, fun hk => hj.blockSize.trans (Instr.blockSize_of_usesKey hk)⟩

/-- Settles O3: the rows a word matches are those of the instruction it decodes to (`hit_row_iff`). -/
theorem legalWordMatchesExactlyOneRow : Obligations.LegalWordMatchesExactlyOneRow := by
  intro w
  constructor
  · intro i hd
    have hrows : opcodeRows.filter (fun r => r.hit w) = opcodeRows.filter (fun r => r = i.row) := by
      refine List.filter_congr fun r hr => ?_
      obtain ⟨k, rfl⟩ := mem_opcodeRows hr
      rw [Bool.eq_iff_iff, hit_row_iff, hd]
      simp [eq_comm]
    rw [hrows, filter_opcodeRows_row, List.map_singleton, Instr.row_mnemonic]
  · intro why hd
    refine List.filter_eq_nil_iff.2 fun r hr hhit => ?_
    obtain ⟨k, rfl⟩ := mem_opcodeRows hr
    obtain ⟨j, hj, -⟩ := (hit_row_iff k w).1 hhit
    rw [hd] at hj
    cases hj

end Sys2Proof

namespace Sys2Proof.Machine

/-! ## The completion of a command word -/

/-- Settles O5: the engine's turn is `engineStep`, and its legal case is `exec`. -/
theorem engineTurnRunsTheDecodedCommand : Obligations.EngineTurnRunsTheDecodedCommand := by
  intro s es i ht hb hd
  rw [step_engine ht]
  rcases engineStep_busy (s := withAgenda es s) hb with ⟨j, hj, he⟩ | ⟨why, hwhy, -⟩
  · rw [withAgenda_cmd, hd, Decoded.legal.injEq] at hj
    rw [he, ← hj]
    rfl
  · rw [withAgenda_cmd, hd] at hwhy
    cases hwhy

/-- The words of the kinds of 60_exceptions.md R204 are those the decoder refuses (30_encoding.md R96). -/
theorem isIllegalWord_iff {w : Word} : isIllegalWord w ↔ ∃ why, decode w = .illegal why := by
  rw [decode_eq]
  split_ifs <;> simp only [Decoded.illegal.injEq, exists_false, exists_eq', iff_true, iff_false] <;>
    omega

/-- An illegal word in flight completes with ILLEGAL_COMMAND (30_encoding.md R97). -/
theorem step_completes_illegal {s : State} {es : List Event} (ht : engineTurn s es)
    (hb : s.busy = true) (hill : isIllegalWord s.cmd) :
    step s = .next (errorCompletion .illegalCommand (withAgenda es s)) := by
  obtain ⟨why, hd⟩ := isIllegalWord_iff.1 hill
  have hres : wordResult (withAgenda es s) = .err .illegalCommand := by
    rw [wordResult, withAgenda_cmd, hd]
  rw [step_completes ht hb, hres, complete_err]

/-- Settles O6: the write is accepted (`step_write_reg`), then the engine's turn is the error completion
(`step_completes_illegal`). -/
theorem illegalWordIsAcceptedAndCompletesAsIllegal :
    Obligations.IllegalWordIsAcceptedAndCompletesAsIllegal := by
  intro s w es hidle hill ha
  exact ⟨_, step_write_reg .cmd rfl rfl (.inr hidle) ha, rfl, rfl,
    step_completes_illegal (.inr rfl) rfl hill⟩

end Sys2Proof.Machine
end

section
/-! PROOFS. 40_command_lifecycle.md: acceptance, the engine's completion step, and what each command
commits. -/

namespace Sys2Proof.Machine

/-! ## Acceptance -/

/-- `s` after a write of the command word `w` that is accepted, with what is left of the schedule
(40_command_lifecycle.md R110). -/
def accepted (w : Word) (es : List Event) (s : State) : State :=
  { s with cmd := w, busy := true, done := false, errcode := 0, agenda := es,
           resp := some (.write .ok) }

/-- While idle a word write to CMD is accepted, whatever the word (40_command_lifecycle.md R110). -/
theorem step_accepts {s : State} {w : Word} {es : List Event} (hidle : s.busy = false)
    (h : s.agenda = wr32 0x014 w :: es) : step s = .next (accepted w es s) :=
  step_write_reg .cmd rfl rfl (.inr hidle) h

/-- Settles O7: CMD is a frozen target, so the write is accepted while idle (`step_accepts`) and dropped
while busy (`step_write_dropped`). -/
theorem cmdWriteAcceptsOrIsDropped : Obligations.CmdWriteAcceptsOrIsDropped := by
  intro s w es h
  have htarget : target s.params Size.four.bytes (0x014 : Word).toNat = some (.reg .cmd) :=
    target_reg rfl _
  exact ⟨fun hidle => step_accepts hidle h, fun hb => step_write_dropped htarget rfl rfl hb h⟩

/-! ## The engine's turn -/

/-- Settles O53: the engine's turn is `engineStep`, which is idle. -/
theorem idleEngineChangesNothing : Obligations.IdleEngineChangesNothing := by
  intro s es ht hidle
  exact (step_engine ht).trans (engineStep_idle (s := withAgenda es s) hidle)

/-- Settles O8: the engine's turn is one completion, whose end is the same for every result. -/
theorem everyCompletionClearsBusyAndSetsDone :
    Obligations.EveryCompletionClearsBusyAndSetsDone := by
  intro s es ht hb
  exact ⟨_, step_completes ht hb, complete_busy _ _, complete_done _ _⟩

@[simp] theorem writeTarget_agenda (t : Target) (n : Nat) (w : Word) (s : State) :
    (writeTarget t n w s).agenda = s.agenda := by
  cases t with
  | reg r => cases r <;> rfl
  | store st x => cases st <;> rfl

@[simp] theorem hostRead_agenda (addr : Word) (size : Size) (s : State) :
    (hostRead addr size s).agenda = s.agenda := by
  obtain ⟨r, d, h⟩ := hostRead_effect addr size s
  rw [h]

@[simp] theorem hostWrite_agenda (addr : Word) (size : Size) (wdata : Word) (s : State) :
    (hostWrite addr size wdata s).agenda = s.agenda := by
  rcases hostWrite_effect addr size wdata s with ⟨r, h⟩ | ⟨r, h⟩ | ⟨t, -, -, -, h⟩ <;> simp [h]

/-- A step from a state with a command in flight ends the command, or takes an entry off the schedule. -/
theorem step_ends_or_shortens {s t : State} (hb : s.busy = true) (h : step s = .next t) :
    t.busy = false ∨ s.agenda.length = t.agenda.length + 1 := by
  rcases step_cases h with ⟨es, -, -, rfl⟩ | ⟨es, -, hidle, -⟩ | ⟨addr, size, es, ha, rfl⟩ |
    ⟨addr, size, wdata, es, ha, rfl⟩ | ⟨es, -, rfl⟩
  · exact .inl (complete_busy _ _)
  · rw [hb] at hidle
    cases hidle
  · exact .inr (by simp [ha])
  · exact .inr (by simp [ha])
  · exact .inl rfl

/-- A command in flight ends after as many steps as are scheduled and at most one more
(40_command_lifecycle.md R111). -/
theorem run_ends_command (s : State) (hb : s.busy = true) :
    ∃ n t, n ≤ s.agenda.length + 1 ∧ Host.Core.run core n s = .next t ∧ t.busy = false := by
  obtain ⟨t, ht⟩ := step_total s
  cases htb : t.busy with
  | false => exact ⟨1, t, by omega, run_succ ht 0, htb⟩
  | true =>
    have hlen := (step_ends_or_shortens hb ht).resolve_left (by simp [htb])
    obtain ⟨n, u, hn, hu, hub⟩ := run_ends_command t htb
    exact ⟨n + 1, u, by omega, (run_succ ht n).trans hu, hub⟩
termination_by s.agenda.length

/-- Settles O54, by induction on the schedule's length (`run_ends_command`). -/
theorem commandInFlightEndsWithinTheSchedule : Obligations.CommandInFlightEndsWithinTheSchedule :=
  run_ends_command

/-! ## The result of a command -/

/-- The code a result leaves in ERRCODE (40_command_lifecycle.md R115, R116). -/
def Result.code : Result → BitVec 4
  | .ok _ => 0
  | .err e => errorCode e

@[simp] theorem complete_errcode (r : Result) (s : State) : (complete r s).errcode = r.code := by
  cases r <;> rfl

/-- The block size is one the engine refuses: 0, in a PAD or an UNPAD (40_command_lifecycle.md R114,
step 2). -/
def blockSizeZero (i : Instr) : Bool := !usesKey i && decide (i.blockSize = 0)

theorem blockSizeZero_iff (i : Instr) :
    blockSizeZero i = true ↔ i.op.toNat ≤ 2 ∧ i.blockSize = 0 := by
  cases i <;> simp [blockSizeZero, usesKey, Instr.op]

theorem blockSizeZero_of_pos {i : Instr} (h : 1 ≤ i.blockSize) : blockSizeZero i = false := by
  rw [blockSizeZero, decide_eq_false (Nat.ne_of_gt h), Bool.and_false]

/-- The operation of step 4 of `Execute` on the source bytes (40_command_lifecycle.md R114). -/
def operation (i : Instr) (p : Params) (keyLen : Nat) (k : Bytes) : Bytes → Result :=
  match i with
  | .pad _ bs => padCmd p bs
  | .unpad _ bs => fun d => unpadBytes d bs
  | .encrypt _ => ecbEnc p keyLen k
  | .decrypt _ => ecbDec p keyLen k

/-- The four commands share one course: the checks, then the operation (40_command_lifecycle.md R114). -/
theorem resultOf_eq_execute (i : Instr) (s : State) :
    resultOf i s =
      execute (blockSizeZero i) i.src (operation i s.params s.keyLen.toNat (keyBytes s)) s := by
  cases i <;> rfl

@[simp] theorem resultOf_withAgenda (i : Instr) (es : List Event) (s : State) :
    resultOf i (withAgenda es s) = resultOf i s := by cases i <;> rfl

theorem wordResult_of_legal {s : State} {i : Instr} (h : decode s.cmd = .legal i) :
    wordResult s = resultOf i s := by rw [wordResult, h]

theorem wordResult_of_illegal {s : State} {why : Illegal} (h : decode s.cmd = .illegal why) :
    wordResult s = .err .illegalCommand := by rw [wordResult, h]

@[simp] theorem wordResult_withAgenda (es : List Event) (s : State) :
    wordResult (withAgenda es s) = wordResult s := by
  cases h : decode s.cmd with
  | legal i =>
    rw [wordResult_of_legal h, wordResult_of_legal (s := withAgenda es s) h, resultOf_withAgenda]
  | illegal why =>
    rw [wordResult_of_illegal h, wordResult_of_illegal (s := withAgenda es s) h]

/-- The result when the checks pass. -/
theorem resultOf_eq_operation {i : Instr} {s : State} (hz : blockSizeZero i = false)
    (hcap : sourceLen i.src s ≤ s.params.bufCap) :
    resultOf i s = operation i s.params s.keyLen.toNat (keyBytes s) (sourceBytes i.src s) := by
  rw [resultOf_eq_execute, hz, execute_fits hcap]

theorem bufCap_lt {p : Params} (hp : p.wf) : p.bufCap < 2 ^ 32 := by
  obtain ⟨-, -, ⟨-, hcap⟩, -⟩ := hp
  omega

/-- A command whose result is `d` completes with success. -/
theorem exec_succeeds {i : Instr} {s : State} {d : Bytes} (h : resultOf i s = .ok d)
    (hd : d.length < 2 ^ 32) : ∃ t, exec i s = .next t ∧ Succeeded s t d :=
  ⟨_, exec_eq i s, h ▸ complete_ok_succeeded hd s⟩

/-! ## What a completion changes -/

/-- Settles O9: a completion with a code other than 0 is an error completion. -/
theorem errorCompletionChangesOnlyItsCode : Obligations.ErrorCompletionChangesOnlyItsCode := by
  intro s es ht hb t hstep hcode
  rw [step_completes ht hb] at hstep
  cases hstep
  cases hr : wordResult (withAgenda es s) with
  | ok d =>
    rw [complete_errcode, hr] at hcode
    exact absurd rfl hcode
  | err e => rfl

/-- Settles O10: a success is a `Succeeded` with a result that fits (`resultOf_fits`), and an error
completion writes no store byte. -/
theorem commandsWriteOnlyTheirResult : Obligations.CommandsWriteOnlyTheirResult := by
  intro i s t hp h
  rw [exec_eq] at h
  cases h
  refine ⟨complete_frame _ _, complete_busy _ _, complete_done _ _, ?_⟩
  rw [complete_errcode]
  cases hr : resultOf i s with
  | ok d =>
    have hfit : d.length ≤ s.params.bufCap := resultOf_fits hr
    have hs : Succeeded s (complete (.ok d) s) d :=
      complete_ok_succeeded (hfit.trans_lt (bufCap_lt hp)) s
    rw [hs.outLen]
    exact ⟨fun _ => ⟨hfit, hs.rest⟩, fun hcode => absurd rfl hcode⟩
  | err e => exact ⟨fun hcode => absurd hcode (errorCodeOf_ne_zero e), fun _ => ⟨rfl, fun _ => rfl⟩⟩

/-! ## The order of the errors -/

theorem execute_code (z : Bool) (src : Src) (op : Bytes → Result) (s : State) :
    (execute z src op s).code =
      if z = true then 5
      else if sourceLen src s > s.params.bufCap then 6
      else (op (sourceBytes src s)).code := by
  unfold execute
  split_ifs <;> rfl

theorem padCmd_code (p : Params) (b : Nat) (d : Bytes) :
    (padCmd p b d).code = if (padBytes d b).length > p.bufCap then 6 else 0 := by
  unfold padCmd
  split_ifs <;> rfl

/-- INVALID_PADDING is UNPAD's only error (41_padding.md R133). -/
theorem unpadBytes_ok_or_invalidPadding (d : Bytes) (b : Nat) :
    (∃ m, unpadBytes d b = .ok m) ∨ unpadBytes d b = .err .invalidPadding :=
  (unpadBytes_cases d b).symm.imp (fun ⟨_, _, h⟩ => ⟨_, h⟩) id

theorem ecb_code (f : Bytes → Bytes → Bytes) (p : Params) (n : Nat) (k d : Bytes) :
    (ecb f p n k d).code =
      if d.length % p.nb ≠ 0 then 2 else if keyValid p n k = false then 3 else 0 := by
  rcases ecb_cases f p n k d with ⟨hl, h⟩ | ⟨hl, hk, h⟩ | ⟨hl, hk, h⟩ <;> rw [h]
  · rw [if_pos hl]; rfl
  · rw [if_neg (not_not.2 hl), if_pos hk]; rfl
  · rw [if_neg (not_not.2 hl), if_neg (by simp [hk])]; rfl

/-- Settles O11: the word is illegal, or has the fields of the instruction it decodes to
(`decode_eq_legal_iff`), and then the code is that of the shared checks (`execute_code`) and of the
instruction's operation. -/
theorem errorPriorityIsTheListedOrder : Obligations.ErrorPriorityIsTheListedOrder := by
  intro s es ht hb
  refine ⟨_, step_completes ht hb, ?_⟩
  rw [complete_errcode, wordResult_withAgenda]
  cases hd : decode s.cmd with
  | illegal why =>
    rw [wordResult_of_illegal hd, if_pos (isIllegalWord_iff.2 ⟨why, hd⟩)]
    rfl
  | legal i =>
    have hlegal : ¬isIllegalWord s.cmd := fun hill => by
      obtain ⟨why, hwhy⟩ := isIllegalWord_iff.1 hill
      rw [hd] at hwhy
      cases hwhy
    obtain ⟨-, -, hop, hsrc, hbs⟩ := decode_eq_legal_iff.1 hd
    have hsource : wordSource s.cmd = i.src := (srcField_eq s.cmd).symm.trans hsrc
    rw [if_neg hlegal, hop, hsource, hbs, wordResult_of_legal hd, resultOf_eq_execute]
    simp only [execute_code, blockSizeZero_iff]
    -- The shared checks are the same on both sides; what is left is the operation's own error.
    congr 2
    cases i with
    | pad src bs => exact padCmd_code _ _ _
    | unpad src bs =>
      rcases unpadBytes_ok_or_invalidPadding (sourceBytes src s) bs with ⟨m, h⟩ | h <;>
        simp only [operation, Instr.src, Instr.blockSize, h] <;> rfl
    | encrypt src => exact (sourceBytes_length src s) ▸ ecb_code _ _ _ _ _
    | decrypt src => exact (sourceBytes_length src s) ▸ ecb_code _ _ _ _ _

/-! ## What a result depends on -/

@[simp] theorem withSource_src (src : Src) (i : Instr) : (withSource src i).src = src := by
  cases i <;> rfl

@[simp] theorem blockSizeZero_withSource (src : Src) (i : Instr) :
    blockSizeZero (withSource src i) = blockSizeZero i := by cases i <;> rfl

@[simp] theorem operation_withSource (src : Src) (i : Instr) :
    operation (withSource src i) = operation i := by cases i <;> rfl

/-- The checks and the operation see nothing of the state but the parameters and the source bytes. -/
theorem execute_congr {src src' : Src} {s s' : State} (hp : s'.params = s.params)
    (hsrc : sourceBytes src' s' = sourceBytes src s) (z : Bool) (op : Bytes → Result) :
    execute z src' op s' = execute z src op s := by
  have hlen : sourceLen src' s' = sourceLen src s := by
    rw [← sourceBytes_length, hsrc, sourceBytes_length]
  simp only [execute, hp, hlen, hsrc]

/-- A command's result depends only on its source bytes and, where it uses it, the key
(40_command_lifecycle.md R120). -/
theorem resultOf_withSource {i : Instr} {src : Src} {s s' : State} (hp : s'.params = s.params)
    (hsrc : sourceBytes src s' = sourceBytes i.src s)
    (hkey : usesKey i = true → s'.keyLen = s.keyLen ∧ keyBytes s' = keyBytes s) :
    resultOf (withSource src i) s' = resultOf i s := by
  have hop : operation i s'.params s'.keyLen.toNat (keyBytes s') =
      operation i s.params s.keyLen.toNat (keyBytes s) := by
    cases i with
    | pad | unpad => rw [hp]; rfl
    | encrypt | decrypt =>
      obtain ⟨hlen, hbytes⟩ := hkey rfl
      rw [hp, hlen, hbytes]
  rw [resultOf_eq_execute, resultOf_eq_execute, withSource_src, blockSizeZero_withSource,
    operation_withSource, hop, execute_congr hp hsrc]

/-- Settles O12: the two results are equal (`resultOf_withSource`), and a completion's code, OUT_LEN and
result bytes are its result's. -/
theorem resultDependsOnlyOnSourceAndKey : Obligations.ResultDependsOnlyOnSourceAndKey := by
  intro i src s s' t t' _ hp hsrc hkey h h'
  have hres : resultOf (withSource src i) s' = resultOf i s :=
    resultOf_withSource hp (hsrc.trans (by cases i <;> rfl)) hkey
  rw [exec_eq] at h h'
  rw [hres] at h'
  cases h
  cases h'
  refine ⟨by simp only [complete_errcode], fun hcode => ?_⟩
  cases hr : resultOf i s with
  | ok d =>
    refine ⟨rfl, fun j hj => ?_⟩
    have hjd : j < d.length := lt_of_lt_of_le hj (Nat.mod_le _ _)
    exact (Memory.read_writeBytes_inside hjd _ _).trans (Memory.read_writeBytes_inside hjd _ _).symm
  | err e =>
    rw [complete_errcode, hr] at hcode
    exact absurd hcode (errorCodeOf_ne_zero e)

/-! ## PAD and UNPAD -/

/-- The padded length is the next multiple of the block size (41_padding.md R132). -/
theorem padBytes_length_eq_mul (d : Bytes) {b : Nat} (hb : 1 ≤ b) :
    (padBytes d b).length = b * (d.length / b + 1) := by
  have hdiv := Nat.div_add_mod d.length b
  have hmod := Nat.mod_lt d.length hb
  rw [padBytes_length, padLen, Nat.mul_add, Nat.mul_one]
  omega

theorem padCmd_fits {p : Params} {b : Nat} {d : Bytes} (h : (padBytes d b).length ≤ p.bufCap) :
    padCmd p b d = .ok (padBytes d b) := by
  rw [padCmd, if_neg (Nat.not_lt.2 h)]

theorem resultOf_pad {src : Src} {bs : Nat} {s : State} (hbs : 1 ≤ bs)
    (hfit : (padBytes (sourceBytes src s) bs).length ≤ s.params.bufCap) :
    resultOf (.pad src bs) s = .ok (padBytes (sourceBytes src s) bs) := by
  have hcap : sourceLen src s ≤ s.params.bufCap := by
    rw [padBytes_length, sourceBytes_length] at hfit
    omega
  rw [resultOf_eq_operation (blockSizeZero_of_pos (i := .pad src bs) hbs) hcap]
  exact padCmd_fits hfit

/-- Settles O13: PAD's result is `padBytes` of its source (`resultOf_pad`). -/
theorem padAppendsPadLenBytes : Obligations.PadAppendsPadLenBytes := by
  intro src bs s hp hbs _ hfit
  have hpad : padLen (sourceBytes src s) bs = bs - sourceLen src s % bs := by
    rw [padLen, sourceBytes_length]
  have hlen : (padBytes (sourceBytes src s) bs).length ≤ s.params.bufCap := by
    rw [padBytes_length, hpad, sourceBytes_length]
    exact hfit
  obtain ⟨t, ht, hs⟩ := exec_succeeds (resultOf_pad hbs hlen) (hlen.trans_lt (bufCap_lt hp))
  refine ⟨t, ht, hpad ▸ hs, ?_⟩
  rw [hs.outLen, padBytes_length_eq_mul _ hbs, sourceBytes_length]

/-- A sequence that ends in a padding footer unpads to the sequence less its footer (41_padding.md
R133). -/
theorem unpadBytes_of_hasPadding {d : Bytes} {b p : Nat} (h : hasPadding d b p) :
    unpadBytes d b = .ok (d.take (d.length - p)) := by
  obtain ⟨hpos, hle, hlen, hfooter⟩ := h
  obtain ⟨last, hlast, rfl⟩ := Option.map_eq_some_iff.1 (hfooter (d.length - 1) (by omega) (by omega))
  have hall : ∀ v ∈ d.drop (d.length - last.toNat), v = last := by
    intro v hv
    obtain ⟨j, hj⟩ := List.mem_iff_getElem?.1 hv
    rw [List.getElem?_drop] at hj
    have hlt := (List.getElem?_eq_some_iff.1 hj).1
    have hvalue := hfooter _ (Nat.le_add_right _ j) hlt
    rw [hj] at hvalue
    exact BitVec.eq_of_toNat_eq (Option.some.inj hvalue)
  have hany : (d.drop (d.length - last.toNat)).any (fun v => v != last) = false := by
    simpa using hall
  rw [unpadBytes, List.getLast?_eq_getElem?, hlast]
  simp only
  rw [if_neg (by omega), if_neg (by omega), if_neg (by omega), hany]
  rfl

theorem resultOf_unpad {src : Src} {bs p : Nat} {s : State} (hbs : 1 ≤ bs)
    (hcap : sourceLen src s ≤ s.params.bufCap) (hpad : hasPadding (sourceBytes src s) bs p) :
    resultOf (.unpad src bs) s = .ok ((sourceBytes src s).take (sourceLen src s - p)) := by
  rw [resultOf_eq_operation (blockSizeZero_of_pos (i := .unpad src bs) hbs) hcap,
    ← sourceBytes_length src s]
  exact unpadBytes_of_hasPadding hpad

/-- Settles O15: UNPAD's result is its source less the footer (`resultOf_unpad`). -/
theorem unpadRemovesTheFooter : Obligations.UnpadRemovesTheFooter := by
  intro src bs p s hbs _ hcap hpad
  have hlen : ((sourceBytes src s).take (sourceLen src s - p)).length = sourceLen src s - p := by
    rw [List.length_take, sourceBytes_length]
    omega
  obtain ⟨t, ht, hs⟩ := exec_succeeds (resultOf_unpad hbs hcap hpad)
    (by have := sourceLen_lt src s; omega)
  exact ⟨t, ht, hs, hs.outLen.trans hlen⟩

/-- The padding that PAD appends is a footer (41_padding.md R130, R131). -/
theorem hasPadding_padBytes (d : Bytes) {b : Nat} (hb : 1 ≤ b) (hb' : b ≤ 255) :
    hasPadding (padBytes d b) b (padLen d b) := by
  have hle := padLen_le d b
  refine ⟨padLen_pos d hb, hle, by rw [padBytes_length]; omega, fun j hlo hhi => ?_⟩
  rw [padBytes_length] at hlo hhi
  have hbyte : (BitVec.ofNat 8 (padLen d b)).toNat = padLen d b := by
    rw [BitVec.toNat_ofNat]
    omega
  rw [padBytes, List.getElem?_append_right (by omega), List.getElem?_replicate_of_lt (by omega),
    Option.map_some, hbyte]

/-- Unpadding a padded sequence gives the sequence back (41_padding.md R136). -/
theorem unpadBytes_padBytes (d : Bytes) {b : Nat} (hb : 1 ≤ b) (hb' : b ≤ 255) :
    unpadBytes (padBytes d b) b = .ok d := by
  rw [unpadBytes_of_hasPadding (hasPadding_padBytes d hb hb'), padBytes_length, Nat.add_sub_cancel,
    padBytes, List.take_left]

/-! ## ENCRYPT and DECRYPT -/

theorem ecb_ok (f : Bytes → Bytes → Bytes) {p : Params} {n : Nat} {k d : Bytes}
    (hl : d.length % p.nb = 0) (hk : keyValid p n k = true) :
    ecb f p n k d = .ok ((blocks p.nb d).flatMap (f k)) := by
  rcases ecb_cases f p n k d with ⟨hne, -⟩ | ⟨-, hinv, -⟩ | ⟨-, -, h⟩
  · exact absurd hl hne
  · rw [hk] at hinv
    cases hinv
  · exact h

theorem keyValid_of_keyOk {s : State} (h : keyOk s) :
    keyValid s.params s.keyLen.toNat (keyBytes s) = true := by
  obtain ⟨hlen, hformat⟩ := h
  rw [keyValid, hformat, hlen, decide_eq_true rfl, Bool.and_true]

/-- An instruction whose operation is `ecb` of the block transform `f` completes with each block
transformed by `f`, in order (42_ecb.md R151 to R154). -/
theorem exec_ecb_succeeds {i : Instr} {s : State} {f : Bytes → Bytes → Bytes}
    (hz : blockSizeZero i = false)
    (hop : operation i s.params s.keyLen.toNat (keyBytes s) =
      ecb f s.params s.keyLen.toNat (keyBytes s))
    (hf : ∀ x, (f (keyBytes s) x).length = s.params.nb) (hcap : sourceLen i.src s ≤ s.params.bufCap)
    (hl : sourceLen i.src s % s.params.nb = 0) (hk : keyOk s) :
    ∃ t c, exec i s = .next t ∧ Succeeded s t c ∧ c.length = sourceLen i.src s ∧
      ∀ j, j < sourceLen i.src s / s.params.nb →
        blockAt s.params.nb c j = f (keyBytes s) (blockAt s.params.nb (sourceBytes i.src s) j) := by
  rw [← sourceBytes_length] at hl
  have hres := resultOf_eq_operation hz hcap
  rw [hop, ecb_ok f hl (keyValid_of_keyOk hk)] at hres
  obtain ⟨hlen, hblocks⟩ := ecb_blocks hf hl
  rw [sourceBytes_length] at hlen hblocks
  obtain ⟨t, ht, hs⟩ := exec_succeeds hres (hlen.trans_lt (sourceLen_lt _ _))
  exact ⟨t, _, ht, hs, hlen, hblocks⟩

/-- Settles O22: ENCRYPT's operation is `ecb` of `E` (`exec_ecb_succeeds`). -/
theorem encryptTransformsEachBlock : Obligations.EncryptTransformsEachBlock := fun src _ _ =>
  exec_ecb_succeeds (i := .encrypt src) rfl rfl (encryptBlock_length _ _)

/-- Settles O23: DECRYPT's operation is `ecb` of `D` (`exec_ecb_succeeds`). -/
theorem decryptTransformsEachBlock : Obligations.DecryptTransformsEachBlock := fun src _ _ =>
  exec_ecb_succeeds (i := .decrypt src) rfl rfl (decryptBlock_length _ _)

/-- Joining the first `n` blocks of a sequence gives its first `n * nb` bytes. -/
theorem flatMap_blockAt (nb : Nat) (d : Bytes) (n : Nat) :
    (List.range n).flatMap (blockAt nb d) = d.take (n * nb) := by
  induction n with
  | zero => simp
  | succ n ih => rw [List.range_succ, List.flatMap_append, ih, List.flatMap_singleton, blockAt,
      Nat.succ_mul, List.take_add]

/-- Transforming every block of an aligned sequence, and then every block of the result back, gives the
sequence again (42_ecb.md R157). -/
theorem flatMap_blocks_inverse {f g : Bytes → Bytes} {nb : Nat} (hf : ∀ x, (f x).length = nb)
    (hgf : ∀ x, x.length = nb → g (f x) = x) {d : Bytes} (h : d.length % nb = 0) :
    (blocks nb ((blocks nb d).flatMap f)).flatMap g = d := by
  obtain ⟨hlen, hblocks⟩ := ecb_blocks hf h
  have hblock : ∀ i ∈ List.range (d.length / nb),
      g (blockAt nb ((blocks nb d).flatMap f) i) = blockAt nb d i := by
    intro i hi
    rw [List.mem_range] at hi
    rw [hblocks i hi, hgf _ (blockAt_length hi)]
  rw [blocks, List.flatMap_map, hlen, List.flatMap_congr hblock, flatMap_blockAt,
    Nat.div_mul_cancel (Nat.dvd_of_mod_eq_zero h), List.take_length]

/-- Under a valid key an aligned sequence encrypts, and its encryption decrypts to it (42_ecb.md R157). -/
theorem ecbDec_ecbEnc {p : Params} {n : Nat} {k d : Bytes} (h : d.length % p.nb = 0)
    (hk : keyValid p n k = true) :
    ∃ c, c.length = d.length ∧ ecbEnc p n k d = .ok c ∧ ecbDec p n k c = .ok d := by
  have hformat : keyFormatOk p k = true := (Bool.and_eq_true_iff.1 hk).2
  have hlen := (ecb_blocks (encryptBlock_length p k) h).1
  refine ⟨_, hlen, ecb_ok _ h hk, ?_⟩
  rw [ecbDec, ecb_ok _ (by rw [hlen, h]) hk,
    flatMap_blocks_inverse (encryptBlock_length p k) (fun x => decryptBlock_encryptBlock hformat) h]

/-! ## A chain of commands -/

/-- Before and between the commands of a chain: no command is in flight, and KEY holds `k`, a key of the
length the parameters `p` ask for. -/
structure KeyLoaded (p : Params) (k : Bytes) (s : State) : Prop where
  params : s.params = p
  idle : s.busy = false
  keyLen : s.keyLen.toNat = p.nk
  key : holds s keyBase k

/-- The last command of the chain succeeded, and left `d` in OUT. -/
structure ResultInOut (d : Bytes) (s : State) : Prop where
  done : s.done = true
  errcode : s.errcode = 0
  outLen : s.outLen.toNat = d.length
  out : holds s outBase d

theorem KeyLoaded.keyBytes_eq {p : Params} {k : Bytes} {s : State} (h : KeyLoaded p k s)
    (hk : k.length = p.nk) : keyBytes s = k := by
  rw [keyBytes, h.params, ← hk, readBytes_of_holds h.key]

theorem ResultInOut.sourceBytes_eq {d : Bytes} {s : State} (h : ResultInOut d s) :
    sourceBytes .outBuf s = d := by
  rw [sourceBytes, sourceLen, h.outLen]
  exact readBytes_of_holds h.out

/-- Acceptance changes no operand of the command accepted. -/
theorem resultOf_accepted (i : Instr) (w : Word) (es : List Event) (s : State) :
    resultOf i (accepted w es s) = resultOf i s := by cases i <;> rfl

/-- Issuing a command while idle and giving the engine its turn completes the command, here one that
succeeds (40_command_lifecycle.md R110, R112, R115). -/
theorem run_command {i : Instr} {s : State} {d : Bytes} {es : List Event} (hi : i.wellFormed = true)
    (hidle : s.busy = false) (ha : s.agenda = wr32 0x014 (encode i) :: .engine :: es)
    (hres : resultOf i s = .ok d) (hd : d.length < 2 ^ 32) :
    ∃ t, Host.Core.run core 2 s = .next t ∧ Succeeded (accepted (encode i) es s) t d := by
  have hword : wordResult (accepted (encode i) es s) = .ok d := by
    rw [wordResult_of_legal (s := accepted (encode i) es s) (decodeOfEncodeIsTheInstruction i hi),
      resultOf_accepted, hres]
  have hturn : step (accepted (encode i) (.engine :: es) s) =
      .next (complete (wordResult (accepted (encode i) es s)) (accepted (encode i) es s)) :=
    step_completes (.inr rfl) rfl
  rw [hword] at hturn
  refine ⟨complete (.ok d) (accepted (encode i) es s), ?_, complete_ok_succeeded hd _⟩
  rw [run_succ (step_accepts hidle ha), run_succ hturn]
  rfl

/-- One command of a chain: it finds its source and the key, and leaves its result in OUT and the key as
it was, for the next command. -/
theorem run_chain_command {i : Instr} {p : Params} {k q r : Bytes} {s : State} {es : List Event}
    (hp : p.wf) (hk : k.length = p.nk) (hi : i.wellFormed = true) (hz : blockSizeZero i = false)
    (hs : KeyLoaded p k s) (hsrc : sourceBytes i.src s = q) (hq : q.length ≤ p.bufCap)
    (hop : operation i p p.nk k q = .ok r)
    (ha : s.agenda = wr32 0x014 (encode i) :: .engine :: es) :
    ∃ t, Host.Core.run core 2 s = .next t ∧ KeyLoaded p k t ∧ ResultInOut r t ∧ t.agenda = es := by
  obtain ⟨rfl, hidle, hkeyLen, hkey⟩ := hs
  have hcap : sourceLen i.src s ≤ s.params.bufCap := by rwa [← sourceBytes_length, hsrc]
  have hres : resultOf i s = .ok r := by
    rw [resultOf_eq_operation hz hcap, hsrc, hkeyLen,
      KeyLoaded.keyBytes_eq ⟨rfl, hidle, hkeyLen, hkey⟩ hk, hop]
  obtain ⟨t, ht, hsucc⟩ :=
    run_command hi hidle ha hres ((resultOf_fits hres).trans_lt (bufCap_lt hp))
  have hbelow : ∀ j, j < k.length → keyBase + j < outBase := by
    obtain ⟨-, ⟨-, hnk, hcap⟩, -⟩ := hp
    intro j hj
    simp only [keyBase, outBase]
    omega
  refine ⟨t, ht, ⟨hsucc.frame.params, hsucc.busy, ?_, fun j hj => ?_⟩,
    ⟨hsucc.done, hsucc.errcode, hsucc.outLen, hsucc.out⟩, hsucc.frame.agenda⟩
  · rw [hsucc.frame.keyLen]
    exact hkeyLen
  · rw [hsucc.rest _ (.inl (hbelow j hj))]
    exact hkey j hj

/-- Settles O30: each command of the chain finds in OUT what the one before it left there
(`run_chain_command`), and the operations undo one another (`ecbDec_ecbEnc`, `unpadBytes_padBytes`). -/
theorem commandChainReturnsTheMessage : Obligations.CommandChainReturnsTheMessage := by
  intro s b d k es hinv hidle hb hb' hbnb hinLen hin hkeyLen hk hkey hformat hfit ha
  have hp := hinv.params_wf
  have hpadded : (padBytes d b).length ≤ s.params.bufCap := by rwa [padBytes_length]
  have haligned : (padBytes d b).length % s.params.nb = 0 := by
    rw [padBytes_length_eq_mul d hb]
    exact Nat.mod_eq_zero_of_dvd ((Nat.dvd_of_mod_eq_zero hbnb).mul_right _)
  have hvalid : keyValid s.params s.params.nk k = true := by simp [keyValid, hformat]
  obtain ⟨c, hclen, hc, hd⟩ := ecbDec_ecbEnc haligned hvalid
  have hsource : sourceBytes .inBuf s = d := by
    rw [sourceBytes, sourceLen, hinLen]
    exact readBytes_of_holds hin
  obtain ⟨s₁, h₁, hkey₁, hout₁, ha₁⟩ := run_chain_command (i := .pad .inBuf b) hp hk
    (decide_eq_true hb') (blockSizeZero_of_pos hb) ⟨rfl, hidle, hkeyLen, hkey⟩ hsource (by omega)
    (padCmd_fits hpadded) ha
  obtain ⟨s₂, h₂, hkey₂, hout₂, ha₂⟩ := run_chain_command (i := .encrypt .outBuf) hp hk rfl rfl hkey₁
    hout₁.sourceBytes_eq hpadded hc ha₁
  obtain ⟨s₃, h₃, hkey₃, hout₃, ha₃⟩ := run_chain_command (i := .decrypt .outBuf) hp hk rfl rfl hkey₂
    hout₂.sourceBytes_eq (by omega) hd ha₂
  obtain ⟨s₄, h₄, -, hout₄, ha₄⟩ := run_chain_command (i := .unpad .outBuf b) hp hk
    (decide_eq_true hb') (blockSizeZero_of_pos hb) hkey₃ hout₃.sourceBytes_eq hpadded
    (unpadBytes_padBytes d hb hb') ha₃
  have h₁₂ := (run_add h₁ 2).trans h₂
  have h₁₃ := (run_add h₁₂ 2).trans h₃
  have h₁₄ := (run_add h₁₃ 2).trans h₄
  refine ⟨?_, s₄, h₁₄, hout₄.outLen, hout₄.out, ha₄⟩
  intro n hn
  simp only [List.mem_cons, List.not_mem_nil, or_false] at hn
  rcases hn with rfl | rfl | rfl | rfl
  · exact ⟨s₁, h₁, hout₁.errcode, hout₁.done⟩
  · exact ⟨s₂, h₁₂, hout₂.errcode, hout₂.done⟩
  · exact ⟨s₃, h₁₃, hout₃.errcode, hout₃.done⟩
  · exact ⟨s₄, h₁₄, hout₄.errcode, hout₄.done⟩

end Sys2Proof.Machine
end

section
/-! PROOFS. 41_padding.md: the errors of PAD and UNPAD, and the laws of the padding codec. -/

namespace Sys2Proof.Machine

/-! ## Commands that fail -/

/-- A command whose result is an error completes with its code. -/
theorem exec_fails {i : Instr} {s : State} {e : Err} (h : resultOf i s = .err e) :
    ∃ t, exec i s = .next t ∧ Failed s t (errorCode e) :=
  ⟨_, exec_eq i s, h ▸ errorCompletion_failed e s⟩

/-- Block size 0 fails before anything else is looked at (60_exceptions.md R205, R209). -/
theorem exec_fails_blockSizeZero {i : Instr} (hz : blockSizeZero i = true) (s : State) :
    ∃ t, exec i s = .next t ∧ Failed s t 5 :=
  exec_fails (e := .invalidBlockSize) (by rw [resultOf_eq_execute, hz, execute_blockSizeZero])

/-- A source longer than the buffer fails before the operation looks at it (60_exceptions.md R206,
R209). -/
theorem exec_fails_overCapacity {i : Instr} {s : State} (hz : blockSizeZero i = false)
    (h : s.params.bufCap < sourceLen i.src s) : ∃ t, exec i s = .next t ∧ Failed s t 6 :=
  exec_fails (e := .capacity) (by rw [resultOf_eq_execute, hz, execute_overCapacity h])

/-- When the shared checks pass, the command fails with its operation's error. -/
theorem exec_fails_operation {i : Instr} {s : State} {e : Err} (hz : blockSizeZero i = false)
    (hcap : sourceLen i.src s ≤ s.params.bufCap)
    (hop : operation i s.params s.keyLen.toNat (keyBytes s) (sourceBytes i.src s) = .err e) :
    ∃ t, exec i s = .next t ∧ Failed s t (errorCode e) :=
  exec_fails ((resultOf_eq_operation hz hcap).trans hop)

/-! ## The length of the padding -/

theorem padLen_eq_blockSize_iff (d : Bytes) {b : Nat} (hb : 1 ≤ b) :
    padLen d b = b ↔ d.length % b = 0 := by
  unfold padLen
  omega

/-- The value of a padding byte is the number of padding bytes: it does not wrap (41_padding.md R131). -/
theorem padLen_byte_toNat (d : Bytes) {b : Nat} (hb : b ≤ 255) :
    (BitVec.ofNat 8 (padLen d b)).toNat = padLen d b := by
  have hle := padLen_le d b
  exact (BitVec.toNat_ofNat _ _).trans (Nat.mod_eq_of_lt (by omega))

/-- A sequence that is `p` bytes short of an aligned length, with `p` from 1 to `b`, is padded by `p`
bytes. -/
theorem padLen_eq_of_aligned {m : Bytes} {b p : Nat} (hpos : 1 ≤ p) (hle : p ≤ b)
    (h : (m.length + p) % b = 0) : padLen m b = p := by
  have hmod := Nat.mod_lt m.length (hpos.trans hle)
  -- The length's remainder and `p` make 1 to `2 * b - 1`, and a multiple of `b`: they make `b`.
  obtain ⟨c, hc⟩ : b ∣ m.length % b + p := by
    rw [Nat.dvd_iff_mod_eq_zero, Nat.mod_add_mod, h]
  have hc₁ : c = 1 := by
    have hlow : 0 < c := Nat.pos_of_mul_pos_left (by omega : 0 < b * c)
    have hhigh : c < 2 := Nat.lt_of_mul_lt_mul_left (by omega : b * c < b * 2)
    omega
  rw [hc₁, Nat.mul_one] at hc
  unfold padLen
  omega

/-- Settles O17, by the bounds of `padLen` (`padLen_pos`, `padLen_le`) and `padLen_eq_blockSize_iff`. -/
theorem padLenIsFromOneToTheBlockSize : Obligations.PadLenIsFromOneToTheBlockSize := by
  intro d b hb hb'
  refine ⟨padLen_pos d hb, padLen_le d b, padLen_eq_blockSize_iff d hb, fun haligned => ?_,
    padLen_byte_toNat d hb'⟩
  rw [padBytes, (padLen_eq_blockSize_iff d hb).2 haligned]

/-- Settles O18: the length is that multiple (`padBytes_length_eq_mul`), and `pad_len` is positive. -/
theorem paddedLengthIsTheNextMultiple : Obligations.PaddedLengthIsTheNextMultiple := by
  intro d b hb _
  have hlen := padBytes_length d b
  have hpos := padLen_pos d hb
  refine ⟨hlen, padBytes_length_eq_mul d hb, ?_, by omega, by omega⟩
  rw [padBytes_length_eq_mul d hb, Nat.mul_mod_right]

/-! ## The footer -/

/-- A footer is a tail of `p` bytes of value `p`. -/
theorem hasPadding_iff_drop {d : Bytes} {b p : Nat} :
    hasPadding d b p ↔
      1 ≤ p ∧ p ≤ b ∧ p ≤ d.length ∧ ∀ v ∈ d.drop (d.length - p), v.toNat = p := by
  have htail : (∀ j, d.length - p ≤ j → j < d.length → (d[j]?).map BitVec.toNat = some p) ↔
      ∀ v ∈ d.drop (d.length - p), v.toNat = p := by
    constructor
    · intro h v hv
      obtain ⟨j, hj⟩ := List.mem_iff_getElem?.1 hv
      rw [List.getElem?_drop] at hj
      have hvalue := h _ (Nat.le_add_right _ j) (List.getElem?_eq_some_iff.1 hj).1
      rw [hj] at hvalue
      exact Option.some.inj hvalue
    · intro h j hlo hhi
      have hmem : d[j] ∈ d.drop (d.length - p) :=
        List.mem_drop_iff_getElem.2 ⟨j - (d.length - p), by omega, by simp [hlo]⟩
      rw [List.getElem?_eq_getElem hhi, Option.map_some, h _ hmem]
  rw [hasPadding, htail]

/-- The last byte of a sequence with a footer tells the footer's length. -/
theorem hasPadding_last {d : Bytes} {b p : Nat} (h : hasPadding d b p) :
    (d[d.length - 1]?).map BitVec.toNat = some p := by
  obtain ⟨hpos, -, hlen, hfooter⟩ := h
  exact hfooter _ (by omega) (by omega)

/-- The footer, as PAD writes it (41_padding.md R130). -/
theorem hasPadding_drop_eq {d : Bytes} {b p : Nat} (h : hasPadding d b p) :
    d.drop (d.length - p) = List.replicate p (BitVec.ofNat 8 p) := by
  obtain ⟨-, -, hlen, hfooter⟩ := hasPadding_iff_drop.1 h
  refine List.eq_replicate_iff.2 ⟨by rw [List.length_drop]; omega, fun v hv => ?_⟩
  rw [← hfooter v hv, BitVec.ofNat_toNat, BitVec.setWidth_eq]

/-- What unpads ends in a footer; the converse is `unpadBytes_of_hasPadding` (41_padding.md R133). -/
theorem hasPadding_of_unpadBytes {d m : Bytes} {b : Nat} (h : unpadBytes d b = .ok m) :
    ∃ p, hasPadding d b p ∧ m = d.take (d.length - p) := by
  unfold unpadBytes at h
  cases hl : d.getLast? with
  | none => simp [hl] at h
  | some last =>
    simp only [hl] at h
    split_ifs at h with hzero hblock hlen hany
    cases h
    refine ⟨last.toNat, hasPadding_iff_drop.2 ⟨by omega, by omega, by omega, fun v hv => ?_⟩, rfl⟩
    have hsame : ∀ v ∈ d.drop (d.length - last.toNat), v = last := by simpa using hany
    rw [hsame v hv]

/-- Without a footer UNPAD's function reports INVALID_PADDING (41_padding.md R133, 60_exceptions.md
R201). -/
theorem unpadBytes_of_not_hasPadding {d : Bytes} {b : Nat} (h : ∀ p, ¬hasPadding d b p) :
    unpadBytes d b = .err .invalidPadding := by
  refine (unpadBytes_ok_or_invalidPadding d b).resolve_left fun ⟨m, hm⟩ => ?_
  obtain ⟨p, hp, -⟩ := hasPadding_of_unpadBytes hm
  exact h p hp

/-! ## The errors of PAD and UNPAD -/

/-- Settles O14: block size and source are the shared checks, and the length of the padded result is the
operation's own. -/
theorem padReportsItsErrors : Obligations.PadReportsItsErrors := by
  intro src bs s
  refine ⟨?_, fun hbs hcap => ?_, fun hbs hcap hover => ?_⟩
  · rintro rfl
    exact exec_fails_blockSizeZero rfl s
  · exact exec_fails_overCapacity (i := .pad src bs) (decide_eq_false hbs) hcap
  · have hlen : s.params.bufCap < (padBytes (sourceBytes src s) bs).length := by
      rwa [padBytes_length, padLen, sourceBytes_length]
    exact exec_fails_operation (i := .pad src bs) (decide_eq_false hbs) hcap (if_pos hlen)

/-- Settles O16: block size and source are the shared checks, and the missing footer is the operation's
own error (`unpadBytes_of_not_hasPadding`). -/
theorem unpadReportsItsErrors : Obligations.UnpadReportsItsErrors := by
  intro src bs s _
  refine ⟨?_, fun hbs hcap => ?_, fun hbs hcap hnone => ?_⟩
  · rintro rfl
    exact exec_fails_blockSizeZero rfl s
  · exact exec_fails_overCapacity (i := .unpad src bs) (decide_eq_false hbs) hcap
  · exact exec_fails_operation (i := .unpad src bs) (decide_eq_false hbs) hcap
      (unpadBytes_of_not_hasPadding hnone)

/-! ## Round trips -/

/-- Settles O19: the padding is a footer, which UNPAD removes (`unpadBytes_padBytes`). -/
theorem unpadInvertsPad : Obligations.UnpadInvertsPad := fun d _ hb hb' =>
  unpadBytes_padBytes d hb hb'

/-- Settles O20: on an aligned input the footer removed has the length PAD would give it
(`padLen_eq_of_aligned`) and the bytes PAD writes (`hasPadding_drop_eq`). -/
theorem padInvertsUnpadOnAlignedInput : Obligations.PadInvertsUnpadOnAlignedInput := by
  refine ⟨fun d m b _ _ haligned _ h => ?_, by decide⟩
  obtain ⟨p, hp, rfl⟩ := hasPadding_of_unpadBytes h
  have ⟨hpos, hle, hlen, _⟩ := hp
  have hpadLen : padLen (d.take (d.length - p)) b = p :=
    padLen_eq_of_aligned hpos hle (by
      rwa [List.length_take_of_le (Nat.sub_le _ _), Nat.sub_add_cancel hlen])
  rw [padBytes, hpadLen, ← hasPadding_drop_eq hp, List.take_append_drop]

/-- Settles O29: the padded message is aligned, so that it survives the cipher (`ecbDec_ecbEnc`), and
then it unpads (`unpadBytes_padBytes`). -/
theorem padEncryptDecryptUnpadIsTheMessage : Obligations.PadEncryptDecryptUnpadIsTheMessage := by
  intro p n b k d _ hb hb' hbnb hk
  have haligned : (padBytes d b).length % p.nb = 0 := by
    rw [padBytes_length_eq_mul d hb]
    exact Nat.mod_eq_zero_of_dvd ((Nat.dvd_of_mod_eq_zero hbnb).mul_right _)
  obtain ⟨c, -, hc, hd⟩ := ecbDec_ecbEnc haligned hk
  exact ⟨c, padBytes d b, hc, hd, unpadBytes_padBytes d hb hb'⟩

/-! ## Tampering -/

/-- The last byte put in the place of the old one tells the length of the footer, if there is one. -/
theorem hasPadding_set_last {d : Bytes} {b p : Nat} {v : Byte}
    (h : hasPadding (d.set (d.length - 1) v) b p) : v.toNat = p := by
  have hlast := hasPadding_last h
  obtain ⟨hpos, -, hlen, -⟩ := h
  rw [List.length_set] at hlast hlen
  rw [List.getElem?_set_self (by omega)] at hlast
  exact Option.some.inj hlast

/-- With a byte before the last one changed, a footer can only be as long as the old one. -/
theorem hasPadding_set_before_last {d : Bytes} {b p q j : Nat} {v : Byte} (hj : j < d.length - 1)
    (hd : hasPadding d b p) (h : hasPadding (d.set j v) b q) : q = p := by
  have hlast := hasPadding_last h
  rw [List.length_set, List.getElem?_set_ne (by omega), hasPadding_last hd] at hlast
  exact (Option.some.inj hlast).symm

/-- A byte put in the place of one of the last `p` is `p`, if there is a footer of `p` bytes then. -/
theorem hasPadding_set_inside {d : Bytes} {b p j : Nat} {v : Byte} (hlo : d.length - p ≤ j)
    (hhi : j < d.length) (h : hasPadding (d.set j v) b p) : v.toNat = p := by
  obtain ⟨-, -, -, hfooter⟩ := h
  have hvalue := hfooter j (by rwa [List.length_set]) (by rwa [List.length_set])
  rw [List.getElem?_set_self hhi] at hvalue
  exact Option.some.inj hvalue

/-- Four of the five padding bytes of a 27-byte message stay when its last byte is set to 1
(41_padding.md R138's example). -/
theorem padBytes_set_last_of_length_27 {m : Bytes} (h : m.length = 27) :
    (padBytes m 8).set 31 0x01 = (m ++ [0x05, 0x05, 0x05, 0x05]) ++ [0x01] := by
  have hpad : padBytes m 8 = m ++ [0x05, 0x05, 0x05, 0x05, 0x05] := by
    rw [padBytes, padLen, h]
    rfl
  rw [hpad, List.set_append_right _ _ (by omega), h, List.append_assoc]
  rfl

/-- One byte 1 at the end is a footer for every block size. -/
theorem hasPadding_append_one (d : Bytes) {b : Nat} (hb : 1 ≤ b) : hasPadding (d ++ [0x01]) b 1 :=
  hasPadding_iff_drop.2 ⟨le_rfl, hb, by simp, by simp⟩

/-- Settles O21: a footer of the changed sequence would have the length its last byte tells, which is
none, or the old one, and then the changed byte would be the old one. -/
theorem tamperedPaddingIsDetected : Obligations.TamperedPaddingIsDetected := by
  refine ⟨fun m b v _ _ hv => ?_, fun m b j v hb hb' hlo hhi hv => ?_, fun m hm => ?_⟩
  · refine unpadBytes_of_not_hasPadding fun p hp => ?_
    have hlast := hasPadding_set_last hp
    obtain ⟨hpos, hle, -⟩ := hp
    omega
  · refine unpadBytes_of_not_hasPadding fun p hp => ?_
    have hlen := padBytes_length m b
    obtain rfl := hasPadding_set_before_last hhi (hasPadding_padBytes m hb hb') hp
    exact hv (hasPadding_set_inside (by omega) (by omega) hp)
  · rw [padBytes_set_last_of_length_27 hm,
      unpadBytes_of_hasPadding (hasPadding_append_one _ (by decide)), List.length_append,
      List.length_singleton, Nat.add_sub_cancel, List.take_left]

end Sys2Proof.Machine
end

section
/-! PROOFS. 42_ecb.md: the errors and the result length of ENCRYPT and DECRYPT, and the laws of ECB. -/

namespace Sys2Proof.Machine

/-! ## What ENCRYPT and DECRYPT share -/

theorem src_and_usesKey {i : Instr} {src : Src} (h : i = .encrypt src ∨ i = .decrypt src) :
    i.src = src ∧ usesKey i = true := by
  rcases h with rfl | rfl <;> exact ⟨rfl, rfl⟩

theorem blockSizeZero_of_usesKey {i : Instr} (h : usesKey i = true) : blockSizeZero i = false := by
  rw [blockSizeZero, h]
  rfl

/-- The operation of an instruction that uses the key is `ecb`, of a block transform that answers whole
blocks (42_ecb.md R151, R152). -/
theorem operation_eq_ecb {i : Instr} (h : usesKey i = true) (p : Params) :
    ∃ f : Bytes → Bytes → Bytes, (∀ k x, (f k x).length = p.nb) ∧
      ∀ n k, operation i p n k = ecb f p n k := by
  cases i with
  | pad | unpad => cases h
  | encrypt => exact ⟨encryptBlock p, encryptBlock_length p, fun _ _ => rfl⟩
  | decrypt => exact ⟨decryptBlock p, decryptBlock_length p, fun _ _ => rfl⟩

/-! ## The errors -/

theorem ecb_invalidLength (f : Bytes → Bytes → Bytes) {p : Params} {d : Bytes}
    (h : d.length % p.nb ≠ 0) (n : Nat) (k : Bytes) : ecb f p n k d = .err .invalidLength :=
  if_pos h

theorem ecb_invalidKey (f : Bytes → Bytes → Bytes) {p : Params} {n : Nat} {k d : Bytes}
    (hl : d.length % p.nb = 0) (hk : ¬keyValid p n k = true) :
    ecb f p n k d = .err .invalidKey := by
  rcases ecb_cases f p n k d with ⟨hne, -⟩ | ⟨-, -, h⟩ | ⟨-, hvalid, -⟩
  · exact absurd hl hne
  · exact h
  · exact absurd hvalid hk

theorem keyValid_iff_keyOk (s : State) :
    keyValid s.params s.keyLen.toNat (keyBytes s) = true ↔ keyOk s := by
  rw [keyValid, Bool.and_eq_true, decide_eq_true_iff]

/-- Settles O24: the capacity is a shared check, and the length and the key are the operation's own
(`ecb_invalidLength`, `ecb_invalidKey`). -/
theorem encryptAndDecryptReportTheirErrors : Obligations.EncryptAndDecryptReportTheirErrors := by
  intro src s i hi
  obtain ⟨rfl, huses⟩ := src_and_usesKey hi
  have hz := blockSizeZero_of_usesKey huses
  obtain ⟨f, -, hop⟩ := operation_eq_ecb huses s.params
  refine ⟨exec_fails_overCapacity hz, fun hcap hl => ?_, fun hcap hl hk => ?_⟩
  · refine exec_fails_operation (e := .invalidLength) hz hcap ?_
    rw [hop, ecb_invalidLength f (by rwa [sourceBytes_length])]
  · refine exec_fails_operation (e := .invalidKey) hz hcap ?_
    rw [hop, ecb_invalidKey f (by rwa [sourceBytes_length]) (mt (keyValid_iff_keyOk s).1 hk)]

/-- Settles O25: an empty source fits and is aligned, so that the key decides between the error of O24
and the success of `exec_ecb_succeeds`, whose result is as long as the source. -/
theorem emptySourceStillChecksTheKey : Obligations.EmptySourceStillChecksTheKey := by
  intro src s i hi hempty
  have hcap : sourceLen src s ≤ s.params.bufCap := hempty.trans_le (Nat.zero_le _)
  have hl : sourceLen src s % s.params.nb = 0 := by rw [hempty, Nat.zero_mod]
  obtain ⟨-, -, hkeyError⟩ := encryptAndDecryptReportTheirErrors src s i hi
  refine ⟨hkeyError hcap hl, fun hk => ?_⟩
  obtain ⟨rfl, huses⟩ := src_and_usesKey hi
  obtain ⟨f, hf, hop⟩ := operation_eq_ecb huses s.params
  obtain ⟨t, c, ht, hs, hlen, -⟩ := exec_ecb_succeeds (blockSizeZero_of_usesKey huses) (hop _ _)
    (hf _) hcap hl hk
  obtain rfl : c = [] := List.length_eq_zero_iff.1 (hlen.trans hempty)
  exact ⟨t, ht, hs⟩

/-! ## A successful result -/

/-- What `ecb` answers Ok for, and the answer: each block transformed, in its place (42_ecb.md R151,
R152). -/
theorem ecb_ok_blocks {f : Bytes → Bytes → Bytes} {p : Params} {n : Nat} {k d c : Bytes}
    (hf : ∀ x, (f k x).length = p.nb) (h : ecb f p n k d = .ok c) :
    d.length % p.nb = 0 ∧ c.length = d.length ∧
      ∀ i, i < d.length / p.nb → blockAt p.nb c i = f k (blockAt p.nb d i) := by
  rcases ecb_cases f p n k d with ⟨-, hr⟩ | ⟨-, -, hr⟩ | ⟨hl, -, hr⟩ <;> rw [hr] at h <;> cases h
  exact ⟨hl, ecb_blocks hf hl⟩

/-- A result Ok is the operation's (40_command_lifecycle.md R114). -/
theorem operation_of_resultOf_ok {i : Instr} {s : State} {c : Bytes} (h : resultOf i s = .ok c) :
    operation i s.params s.keyLen.toNat (keyBytes s) (sourceBytes i.src s) = .ok c := by
  rw [resultOf_eq_execute] at h
  rcases execute_cases (blockSizeZero i) i.src (operation i s.params s.keyLen.toNat (keyBytes s)) s with
    ⟨-, hr⟩ | ⟨-, -, hr⟩ | ⟨-, -, hr⟩ <;> rw [hr] at h
  · cases h
  · cases h
  · exact h

/-- A completion with code 0 is a success with the command's result. -/
theorem succeeded_of_errcode_zero {i : Instr} {s t : State} (hp : s.params.wf)
    (h : exec i s = .next t) (hcode : t.errcode = 0) :
    ∃ c, resultOf i s = .ok c ∧ Succeeded s t c := by
  rw [exec_eq] at h
  cases h
  cases hr : resultOf i s with
  | ok c => exact ⟨c, rfl, complete_ok_succeeded ((resultOf_fits hr).trans_lt (bufCap_lt hp)) s⟩
  | err e =>
    rw [complete_errcode, hr] at hcode
    exact absurd hcode (errorCodeOf_ne_zero e)

/-- Settles O26: the result is `ecb`'s, as long as the source (`ecb_ok_blocks`), and every result fits
the buffer (`resultOf_fits`). -/
theorem encryptAndDecryptKeepTheLength : Obligations.EncryptAndDecryptKeepTheLength := by
  intro src s t i hi hp ht hcode
  obtain ⟨rfl, huses⟩ := src_and_usesKey hi
  obtain ⟨f, hf, hop⟩ := operation_eq_ecb huses s.params
  obtain ⟨c, hres, hs⟩ := succeeded_of_errcode_zero hp ht hcode
  have hecb := operation_of_resultOf_ok hres
  rw [hop] at hecb
  obtain ⟨hl, hlen, -⟩ := ecb_ok_blocks (hf _) hecb
  rw [hs.outLen]
  exact ⟨hlen.trans (sourceBytes_length _ _), hlen ▸ hl, resultOf_fits hres⟩

/-! ## The laws of ECB -/

/-- A result block depends on the key and its own source block alone (42_ecb.md R155). -/
theorem ecb_blockAt_congr {f : Bytes → Bytes → Bytes} {p : Params} {n : Nat} {k d d' c c' : Bytes}
    {i i' : Nat} (hf : ∀ x, (f k x).length = p.nb) (hi : i < d.length / p.nb)
    (hi' : i' < d'.length / p.nb) (heq : blockAt p.nb d i = blockAt p.nb d' i')
    (h : ecb f p n k d = .ok c) (h' : ecb f p n k d' = .ok c') :
    blockAt p.nb c i = blockAt p.nb c' i' := by
  obtain ⟨-, -, hc⟩ := ecb_ok_blocks hf h
  obtain ⟨-, -, hc'⟩ := ecb_ok_blocks hf h'
  rw [hc i hi, heq, hc' i' hi']

/-- Settles O27: both functions are `ecb` of a block transform (`ecb_blockAt_congr`). -/
theorem equalBlocksGiveEqualBlocks : Obligations.EqualBlocksGiveEqualBlocks :=
  fun p _ k _ _ _ _ _ _ _ hi hi' heq =>
    ⟨ecb_blockAt_congr (encryptBlock_length p k) hi hi' heq,
     ecb_blockAt_congr (decryptBlock_length p k) hi hi' heq⟩

/-- Under a valid key an aligned sequence decrypts, and its decryption encrypts to it: the converse of
`ecbDec_ecbEnc` (42_ecb.md R157). -/
theorem ecbEnc_ecbDec {p : Params} {n : Nat} {k d : Bytes} (h : d.length % p.nb = 0)
    (hk : keyValid p n k = true) : ∃ c, ecbDec p n k d = .ok c ∧ ecbEnc p n k c = .ok d := by
  have hformat : keyFormatOk p k = true := (Bool.and_eq_true_iff.1 hk).2
  have hdec : ecbDec p n k d = .ok ((blocks p.nb d).flatMap (decryptBlock p k)) := ecb_ok _ h hk
  obtain ⟨-, hlen, -⟩ := ecb_ok_blocks (decryptBlock_length p k) hdec
  refine ⟨_, hdec, ?_⟩
  rw [ecbEnc, ecb_ok _ (by rw [hlen, h]) hk,
    flatMap_blocks_inverse (decryptBlock_length p k) (fun _ => encryptBlock_decryptBlock hformat) h]

/-- Settles O28, by `ecbDec_ecbEnc` and its converse `ecbEnc_ecbDec`. -/
theorem ecbRoundTrips : Obligations.EcbRoundTrips := by
  intro p n k d _ h hk
  obtain ⟨c, -, hc, hd⟩ := ecbDec_ecbEnc h hk
  exact ⟨⟨c, hc, hd⟩, ecbEnc_ecbDec h hk⟩

end Sys2Proof.Machine
end

section
/-! PROOFS. 70_reset_and_hazards.md: what the reset input does, and the state after reset. -/

namespace Sys2Proof.Machine

/-! ## Reset -/

/-- The interrupt output is low while DONE is 0, and reset clears DONE (70_reset_and_hazards.md R242). -/
@[simp] theorem irq_resetWith (p : Params) : irq (State.resetWith p) = false := by
  rw [irq, resetWith_done, Bool.false_and]

/-- Settles O47: the step is `assertReset` (`step_reset`), whose effect on each field is a rule of its
own (`assertReset_ie` and the others); the memory it leaves is empty, and so reads as unwritten. -/
theorem resetStepSetsEveryRegister : Obligations.ResetStepSetsEveryRegister := by
  intro s es h
  refine ⟨assertReset (withAgenda es s), step_reset h, ?_⟩
  simp

/-- Settles O48: `State.reset` is `State.resetWith` of test configuration T1, and `resetWith` gives
every configuration the reset values (`resetWith_ie` and the others, `irq_resetWith`). -/
theorem resetStateHoldsTheResetValues : Obligations.ResetStateHoldsTheResetValues := by
  unfold Obligations.ResetStateHoldsTheResetValues State.reset
  simp

end Sys2Proof.Machine
end
